-- ==== Sys2Proof/Word.lean ====
section
/-! DEFINITION. The plain types of the Mesh Security Core: a byte, a 32-bit bus word, and the fixed-width byte strings
the spec calls a block (16 bytes), a nonce (13), a privacy random (7) and a received MIC (8) (spec/00_scope.md R7, R9). -/

namespace Sys2Proof

/-- One byte of a byte string (R9), bit 7 the most significant (R10). -/
abbrev Byte := BitVec 8

/-- One 32-bit value of the host data bus (R7). -/
abbrev Word := BitVec 32

/-- A 16-byte block or key, element 0 first (R9). -/
abbrev Block := Vector Byte 16

end Sys2Proof
end

