-- ==== Sys2Proof/Config.lean ====
section
/-! DEFINITION. What an implementation fixes: the fixed values of spec/00_scope.md R7 and the one open parameter of R8
that is a function, LATENCY. The other two open parameters of R8 are data of Machine/Platform.lean (BASE_ADDR and
N_INSTANCES). The spec leaves no result of a command open, so the model has no free value. -/

namespace Sys2Proof

/-- `CORE_ID` of R7: MAGIC "MSC" in bits [31:8], VERSION 1 in bits [7:0] (R31). -/
def Config.coreId : Word := 0x4D534301

/-- Register space size of R7: offsets 0x000 to 0xFFF. -/
def Config.spaceBytes : Nat := 4096

/-- `BUF_BYTES` of R7, the size of each of BUF_A, BUF_B and BUF_O. -/
def Config.bufBytes : Nat := 1024

/-- `LATENCY(op, lenA, lenB, m8)` of R8 and R312: an argument of the timed model (Machine/Timed.lean). Its type says
that it depends on nothing but its four arguments; `atLeastOne` says that it is a finite number of cycles, 1 or more. -/
structure Config.Latency where
  cycles : Byte → Nat → Nat → Bool → Nat
  atLeastOne : ∀ op lenA lenB m8, 1 ≤ cycles op lenA lenB m8

end Sys2Proof
end

