-- ==== Sys2Proof/Syntax.lean ====
section
/-! DEFINITION. The syntax of the Mesh Security Core: its twelve commands (spec/30_encoding.md R102), the host's bus
accesses (spec/20_memory.md R72), and the host-script statements and pseudo-statements of R107 to R109. -/

namespace Sys2Proof

/-- The MIC-size operand of CCM_ENC and CCM_DEC (R101, R107): `m4` is M8 = 0, `m8` is M8 = 1. -/
inductive MicSize where
  | m4
  | m8
deriving DecidableEq, Repr

/-- The commands of R102, one constructor per row of spec/opcode_table.json. Every operand but the MIC size is implicit
(R101), so only the two CCM commands carry one. -/
inductive Instr where
  | clear
  | aes
  | cmac
  | s1
  | ccmEnc (m : MicSize)
  | ccmDec (m : MicSize)
  | k1
  | k2
  | k3
  | k4
  | obf
  | deobf
deriving DecidableEq, Repr

/-- One host bus access (R72, R73): `read off n` is MemRead(off, n), `write off n v` is MemWrite(off, n, v) with the n-byte
bus value in bits [8n-1:0] of v. Any offset and width may be asked for; those R72 or R77 forbid get BUS_ERROR. -/
inductive Access where
  | read (off n : Nat)
  | write (off n : Nat) (v : Word)
deriving DecidableEq, Repr

/-- One entry of a host's script: a bus access, or the host's own polling loop `wait` of R109. -/
inductive HostOp where
  | access (a : Access)
  | wait
deriving DecidableEq, Repr

/-- The host-script statements of R108, one bus access each. `cmdWord` is `cmd .word W`, an arbitrary command word. -/
inductive Stmt where
  | wr8 (off : Nat) (v : BitVec 8)
  | wr16 (off : Nat) (v : BitVec 16)
  | wr32 (off : Nat) (v : Word)
  | rd8 (off : Nat)
  | rd16 (off : Nat)
  | rd32 (off : Nat)
  | cmd (i : Instr)
  | cmdWord (w : Word)
deriving DecidableEq, Repr

/-- The registers and buffers whose base offset `load` and `read` of R109 may name. -/
inductive RegName where
  | key
  | nonce
  | prand
  | micIn
  | bufA
  | bufB
  | result0
  | result1
  | result2
  | bufO
  | lenA
  | lenB
  | ivindex
deriving DecidableEq, Repr

/-- The pseudo-statements of R109. -/
inductive Pseudo where
  | load (r : RegName) (bytes : List Byte)
  | lena (n : Word)
  | lenb (n : Word)
  | iv (v : Word)
  | wait
  | run (i : Instr)
  | read (r : RegName) (n : Nat)
  | ack
deriving DecidableEq, Repr

end Sys2Proof
end

