-- ==== Sys2Proof/WellFormed.lean ====
section
/-! DEFINITION. What the spec calls legal: a command word (spec/30_encoding.md R103), a bus access (spec/20_memory.md R72
and R77), and an instruction's MIC-size operand (R101). The machine does not call these: statements compare it with them. -/

namespace Sys2Proof

/-- `Legal(w)` of R103, condition by condition. -/
def legalWord (w : Word) : Bool :=
  w.extractLsb' 9 23 == 0 && decide ((w.extractLsb' 0 8).toNat ≤ 0x0B) &&
    (!w.getLsbD 8 || (w.extractLsb' 0 8).toNat == 0x04 || (w.extractLsb' 0 8).toNat == 0x05)

/-- The offset an access starts at. -/
def Access.offset : Access → Nat
  | .read off _ => off
  | .write off _ _ => off

/-- The width n of an access, in bytes. -/
def Access.width : Access → Nat
  | .read _ n => n
  | .write _ n _ => n

/-- R77: a 1- or 2-byte write that touches CMD. -/
def Access.narrowCmdWrite : Access → Bool
  | .read _ _ => false
  | .write off n _ => decide (n ≠ 4 ∧ 0x004 ≤ off ∧ off ≤ 0x007)

/-- A legal access: width 1, 2 or 4, naturally aligned, inside the 4096 bytes (R72), and no narrow CMD write (R77). -/
def Access.wellFormed (a : Access) : Bool :=
  decide ((a.width = 1 ∨ a.width = 2 ∨ a.width = 4) ∧ a.offset % a.width = 0 ∧ a.offset + a.width ≤ 0x1000) &&
    !a.narrowCmdWrite

/-- M of R101: 4 + 4·M8 bytes. -/
def MicSize.bytes : MicSize → Nat
  | .m4 => 4
  | .m8 => 8

/-- An instruction is well formed when its MIC size, where it has one, is 4 or 8 bytes (R101: "the only range the field
can express"). The type admits no other instruction, so this check refuses nothing; an illegal command is an illegal WORD
(`legalWord`), which decodes to no instruction. -/
def Instr.wellFormed : Instr → Bool
  | .clear | .aes | .cmac | .s1 | .k1 | .k2 | .k3 | .k4 | .obf | .deobf => true
  | .ccmEnc m | .ccmDec m => m.bytes == 4 || m.bytes == 8

end Sys2Proof
end

