-- ==== Sys2Proof/Decode.lean ====
section
/-! DEFINITION. Decoding and encoding of the 32-bit command word (spec/30_encoding.md R100 to R105). `decode` is total: it
answers the command of a word or the reason the word is illegal (R103, R104). The encoder follows, from the same tables. -/

namespace Sys2Proof

/-- Why a word is no command (R103, R104). Every one of the first three completes with ERR_OPCODE (R263); `notOneWord` is
for a byte string that is not exactly one 32-bit word (R105), which no bus access can deliver as a command. -/
inductive Illegal where
  | reservedBits
  | reservedOpcode
  | strayM8
  | notOneWord
deriving DecidableEq, Repr

/-- One row of the opcode map: a word belongs to it when `word AND mask = pattern`. -/
structure OpRow where
  mnemonic : String
  pattern : Word
  mask : Word
  build : MicSize → Instr

/-- The opcode map of R102, with the match and mask values of spec/opcode_table.json. -/
def opcodeMap : List OpRow :=
  [⟨"CLEAR", 0x00000000, 0xFFFFFFFF, fun _ => .clear⟩,
   ⟨"AES", 0x00000001, 0xFFFFFFFF, fun _ => .aes⟩,
   ⟨"CMAC", 0x00000002, 0xFFFFFFFF, fun _ => .cmac⟩,
   ⟨"S1", 0x00000003, 0xFFFFFFFF, fun _ => .s1⟩,
   ⟨"CCM_ENC", 0x00000004, 0xFFFFFEFF, fun m => .ccmEnc m⟩,
   ⟨"CCM_DEC", 0x00000005, 0xFFFFFEFF, fun m => .ccmDec m⟩,
   ⟨"K1", 0x00000006, 0xFFFFFFFF, fun _ => .k1⟩,
   ⟨"K2", 0x00000007, 0xFFFFFFFF, fun _ => .k2⟩,
   ⟨"K3", 0x00000008, 0xFFFFFFFF, fun _ => .k3⟩,
   ⟨"K4", 0x00000009, 0xFFFFFFFF, fun _ => .k4⟩,
   ⟨"OBF", 0x0000000A, 0xFFFFFFFF, fun _ => .obf⟩,
   ⟨"DEOBF", 0x0000000B, 0xFFFFFFFF, fun _ => .deobf⟩]

/-- Bit [8] of the word, as the MIC size it selects (R100, R101). -/
def micOfWord (w : Word) : MicSize :=
  if w.getLsbD 8 then .m8 else .m4

/-- The reason a word outside the opcode map is illegal: a reserved bit [31:9] set, an opcode 0x0C to 0xFF, or M8 = 1 on a
command other than CCM_ENC and CCM_DEC (R104). -/
def whyIllegal (w : Word) : Illegal :=
  if w.extractLsb' 9 23 ≠ 0 then .reservedBits
  else if 0x0B < (w.extractLsb' 0 8).toNat then .reservedOpcode
  else .strayM8

/-- The command a word stands for (R102), or why it is illegal (R103). -/
def decode (w : Word) : Except Illegal Instr :=
  match opcodeMap.find? (fun r => w &&& r.mask == r.pattern) with
  | some r => .ok (r.build (micOfWord w))
  | none => .error (whyIllegal w)

/-- The 32-bit word four bytes make on the little-endian lanes (R73), the first byte in bits [7:0]. -/
def wordOfBytes (b0 b1 b2 b3 : Byte) : Word := b3 ++ b2 ++ b1 ++ b0

/-- The four bytes of a word, lane 0 first (R73). -/
def bytesOfWord (w : Word) : List Byte :=
  [w.extractLsb' 0 8, w.extractLsb' 8 8, w.extractLsb' 16 8, w.extractLsb' 24 8]

/-- Decoding from bytes: a command is exactly one 32-bit word (R105). -/
def decodeBytes : List Byte → Except Illegal Instr
  | [b0, b1, b2, b3] => decode (wordOfBytes b0 b1 b2 b3)
  | _ => .error .notOneWord

/-- OP of R100 for each command (R102). -/
def Instr.opcode : Instr → Byte
  | .clear => 0x00
  | .aes => 0x01
  | .cmac => 0x02
  | .s1 => 0x03
  | .ccmEnc _ => 0x04
  | .ccmDec _ => 0x05
  | .k1 => 0x06
  | .k2 => 0x07
  | .k3 => 0x08
  | .k4 => 0x09
  | .obf => 0x0A
  | .deobf => 0x0B

/-- M8 of R100: 1 only for an 8-byte MIC of CCM_ENC or CCM_DEC (R101). -/
def Instr.m8 : Instr → Bool
  | .ccmEnc .m8 | .ccmDec .m8 => true
  | .ccmEnc .m4 | .ccmDec .m4 => false
  | .clear | .aes | .cmac | .s1 | .k1 | .k2 | .k3 | .k4 | .obf | .deobf => false

/-- The command word: OP in [7:0], M8 in [8], RES = 0 in [31:9] (R100). -/
def encode (i : Instr) : Word := 0#23 ++ BitVec.ofBool i.m8 ++ i.opcode

/-- The command word as the bytes a host writes to offsets 0x004 to 0x007 (R73). -/
def encodeBytes (i : Instr) : List Byte := bytesOfWord (encode i)

/-- The mnemonic of a command as spec/opcode_table.json spells it (R102). -/
def Instr.mnemonic : Instr → String
  | .clear => "CLEAR"
  | .aes => "AES"
  | .cmac => "CMAC"
  | .s1 => "S1"
  | .ccmEnc _ => "CCM_ENC"
  | .ccmDec _ => "CCM_DEC"
  | .k1 => "K1"
  | .k2 => "K2"
  | .k3 => "K3"
  | .k4 => "K4"
  | .obf => "OBF"
  | .deobf => "DEOBF"

/-- A command as a host script writes it (R107): the mnemonic, and for the CCM commands the operand M4 or M8. -/
def Instr.text (i : Instr) : String :=
  match i with
  | .ccmEnc .m4 | .ccmDec .m4 => i.mnemonic ++ " M4"
  | .ccmEnc .m8 | .ccmDec .m8 => i.mnemonic ++ " M8"
  | .clear | .aes | .cmac | .s1 | .k1 | .k2 | .k3 | .k4 | .obf | .deobf => i.mnemonic

/-- The commands in table order, both MIC sizes of the CCM commands (the complete list of legal words of R102). -/
def allInstrs : List Instr :=
  [.clear, .aes, .cmac, .s1, .ccmEnc .m4, .ccmEnc .m8, .ccmDec .m4, .ccmDec .m8, .k1, .k2, .k3, .k4, .obf, .deobf]

/-- Reading a command as R107 writes it. -/
def parseCommand (text : String) : Option Instr :=
  allInstrs.find? fun i => i.text == text

/-- The instruction the decoder reads from a row's bits: the low `nbits` bits of `w`, every higher bit 0, laid out as the
four bytes of the command word, lane 0 first (R73), and decoded. -/
def decodeTableWord (nbits w : Nat) : Option Instr :=
  (decodeBytes (bytesOfWord (BitVec.ofNat 32 (w % 2 ^ nbits)))).toOption

end Sys2Proof
end

