-- ==== Sys2Proof/Machine/Bytes.lean ====
section
/-! DEFINITION. Byte strings and blocks: the notation of spec/00_scope.md R9 and R10. -/

namespace Sys2Proof.Machine

/-- The block whose byte i is `f i`. -/
def blockBuild (f : Nat → Byte) : Block :=
  ⟨⟨[f 0, f 1, f 2, f 3, f 4, f 5, f 6, f 7, f 8, f 9, f 10, f 11, f 12, f 13, f 14, f 15]⟩, rfl⟩

/-- Byte i of a block (R9). -/
def blockAt (b : Block) (i : Nat) : Byte := b.toList.getD i 0

/-- `0^128` of R9: the zero block. -/
def zeroBlock : Block := Vector.replicate 16 0

/-- `zeros(n)` of R9. -/
def zeros (n : Nat) : List Byte := List.replicate n 0

/-- A string of at most 16 bytes as a block, zeros after its end. -/
def blockOf (l : List Byte) : Block := blockBuild fun i => l.getD i 0

/-- `a XOR b` of two blocks (R9). -/
def blockXor (a b : Block) : Block := blockBuild fun i => blockAt a i ^^^ blockAt b i

/-- `a XOR b` bytewise, of two strings; the result has the shorter one's length (R9 uses it on equal lengths). -/
def xorBytes (a b : List Byte) : List Byte := List.zipWith (· ^^^ ·) a b

/-- Bytes [16i, 16i + 16) of a string as a block, zeros past the string's end. -/
def blockOfString (m : List Byte) (i : Nat) : Block := blockOf ((m.drop (16 * i)).take 16)

/-- `ceil(x/16)` of R11: the number of blocks x bytes touch. -/
def ceil16 (x : Nat) : Nat := (x + 15) / 16

/-- `int128(b)` of R10: byte 0 is the most significant. -/
def int128 (b : Block) : BitVec 128 :=
  b.toList.foldl (fun v x => (v <<< 8) ||| x.setWidth 128) 0

/-- `bytes16(v)` of R10, the inverse of `int128`. -/
def bytes16 (v : BitVec 128) : Block := blockBuild fun i => v.extractLsb' (8 * (15 - i)) 8

/-- `be16(n)` of R10. -/
def be16 (n : Nat) : List Byte := [BitVec.ofNat 8 (n / 256), BitVec.ofNat 8 n]

/-- `be32(v)` of R10. -/
def be32 (v : Word) : List Byte :=
  [v.extractLsb' 24 8, v.extractLsb' 16 8, v.extractLsb' 8 8, v.extractLsb' 0 8]

end Sys2Proof.Machine
end

