-- ==== Sys2Proof/Machine/Aes.lean ====
section
/-! DEFINITION. AES-128 forward encryption, `E(K, X)` (spec/40_block.md R131 to R140). A block is its own state array: byte
r + 4c of the block is s[r][c] (R131). -/

namespace Sys2Proof.Machine

/-- Multiplication by x in GF(2^8) with polynomial 0x11B (R132). -/
def xtime (a : Byte) : Byte := (a <<< 1) ^^^ (if a.msb then 0x1B else 0x00)

/-- The field product of R132: the XOR, over the set bits i of b, of xtime^i(a). -/
def gmul (a b : Byte) : Byte :=
  (List.range 8).foldl (fun acc i => if b.getLsbD i then acc ^^^ (xtime^[i] a) else acc) 0

/-- The S-box table of R134, one list per row `hi`. -/
def sboxRows : List (List Byte) :=
  [[0x63, 0x7c, 0x77, 0x7b, 0xf2, 0x6b, 0x6f, 0xc5, 0x30, 0x01, 0x67, 0x2b, 0xfe, 0xd7, 0xab, 0x76],
   [0xca, 0x82, 0xc9, 0x7d, 0xfa, 0x59, 0x47, 0xf0, 0xad, 0xd4, 0xa2, 0xaf, 0x9c, 0xa4, 0x72, 0xc0],
   [0xb7, 0xfd, 0x93, 0x26, 0x36, 0x3f, 0xf7, 0xcc, 0x34, 0xa5, 0xe5, 0xf1, 0x71, 0xd8, 0x31, 0x15],
   [0x04, 0xc7, 0x23, 0xc3, 0x18, 0x96, 0x05, 0x9a, 0x07, 0x12, 0x80, 0xe2, 0xeb, 0x27, 0xb2, 0x75],
   [0x09, 0x83, 0x2c, 0x1a, 0x1b, 0x6e, 0x5a, 0xa0, 0x52, 0x3b, 0xd6, 0xb3, 0x29, 0xe3, 0x2f, 0x84],
   [0x53, 0xd1, 0x00, 0xed, 0x20, 0xfc, 0xb1, 0x5b, 0x6a, 0xcb, 0xbe, 0x39, 0x4a, 0x4c, 0x58, 0xcf],
   [0xd0, 0xef, 0xaa, 0xfb, 0x43, 0x4d, 0x33, 0x85, 0x45, 0xf9, 0x02, 0x7f, 0x50, 0x3c, 0x9f, 0xa8],
   [0x51, 0xa3, 0x40, 0x8f, 0x92, 0x9d, 0x38, 0xf5, 0xbc, 0xb6, 0xda, 0x21, 0x10, 0xff, 0xf3, 0xd2],
   [0xcd, 0x0c, 0x13, 0xec, 0x5f, 0x97, 0x44, 0x17, 0xc4, 0xa7, 0x7e, 0x3d, 0x64, 0x5d, 0x19, 0x73],
   [0x60, 0x81, 0x4f, 0xdc, 0x22, 0x2a, 0x90, 0x88, 0x46, 0xee, 0xb8, 0x14, 0xde, 0x5e, 0x0b, 0xdb],
   [0xe0, 0x32, 0x3a, 0x0a, 0x49, 0x06, 0x24, 0x5c, 0xc2, 0xd3, 0xac, 0x62, 0x91, 0x95, 0xe4, 0x79],
   [0xe7, 0xc8, 0x37, 0x6d, 0x8d, 0xd5, 0x4e, 0xa9, 0x6c, 0x56, 0xf4, 0xea, 0x65, 0x7a, 0xae, 0x08],
   [0xba, 0x78, 0x25, 0x2e, 0x1c, 0xa6, 0xb4, 0xc6, 0xe8, 0xdd, 0x74, 0x1f, 0x4b, 0xbd, 0x8b, 0x8a],
   [0x70, 0x3e, 0xb5, 0x66, 0x48, 0x03, 0xf6, 0x0e, 0x61, 0x35, 0x57, 0xb9, 0x86, 0xc1, 0x1d, 0x9e],
   [0xe1, 0xf8, 0x98, 0x11, 0x69, 0xd9, 0x8e, 0x94, 0x9b, 0x1e, 0x87, 0xe9, 0xce, 0x55, 0x28, 0xdf],
   [0x8c, 0xa1, 0x89, 0x0d, 0xbf, 0xe6, 0x42, 0x68, 0x41, 0x99, 0x2d, 0x0f, 0xb0, 0x54, 0xbb, 0x16]]

/-- `SBOX(a)` by the table of R134, a = 16·hi + lo. -/
def sbox (a : Byte) : Byte := (sboxRows.getD (a.toNat / 16) []).getD (a.toNat % 16) 0

/-- a^(2^(n+1) - 2) = a^2 · a^4 · ... · a^(2^n), by n squarings (R132's product). -/
def gfPowers : Nat → Byte → Byte
  | 0, _ => 1
  | n + 1, a => gmul (gmul a a) (gfPowers n (gmul a a))

/-- The multiplicative inverse b of a in GF(2^8), 0 for 0 (R133), as a^254. -/
def gfInv (a : Byte) : Byte := gfPowers 7 a

/-- `SBOX(a)` by the formula of R133. The cipher uses the table; R133 says the two agree on all 256 entries. -/
def sboxFormula (a : Byte) : Byte :=
  gfInv a ^^^ (gfInv a).rotateLeft 1 ^^^ (gfInv a).rotateLeft 2 ^^^ (gfInv a).rotateLeft 3 ^^^ (gfInv a).rotateLeft 4 ^^^ 0x63

/-- SubBytes (R135). -/
def subBytes (s : Block) : Block := blockBuild fun i => sbox (blockAt s i)

/-- ShiftRows (R136): s'[r][c] = s[r][(c + r) mod 4], with r = i mod 4 and c = i div 4. -/
def shiftRows (s : Block) : Block := blockBuild fun i => blockAt s (i % 4 + 4 * ((i / 4 + i % 4) % 4))

/-- MixColumns (R137): row r of a column is 2·a_r + 3·a_(r+1) + a_(r+2) + a_(r+3), the row numbers mod 4. -/
def mixColumns (s : Block) : Block := blockBuild fun i =>
  gmul (blockAt s (4 * (i / 4) + i % 4)) 2 ^^^ gmul (blockAt s (4 * (i / 4) + (i % 4 + 1) % 4)) 3 ^^^
    blockAt s (4 * (i / 4) + (i % 4 + 2) % 4) ^^^ blockAt s (4 * (i / 4) + (i % 4 + 3) % 4)

/-- The round constants of R139. -/
def rcon : List Byte := [0x01, 0x02, 0x04, 0x08, 0x10, 0x20, 0x40, 0x80, 0x1B, 0x36]

/-- RotWord (R139). -/
def rotWord (t : List Byte) : List Byte := [t.getD 1 0, t.getD 2 0, t.getD 3 0, t.getD 0 0]

/-- The word t that R139 XORs into w[i-4] to make w[i]. -/
def keyMix (prev : List Byte) (i : Nat) : List Byte :=
  if i % 4 = 0 then xorBytes ((rotWord prev).map sbox) [rcon.getD (i / 4 - 1) 0, 0, 0, 0] else prev

/-- The four words of the key itself, then w[4] to w[43] (R139), each a string of 4 bytes. -/
def keyWords (k : Block) : List (List Byte) :=
  (List.range 40).foldl (fun ws j => ws ++ [xorBytes (ws.getD j []) (keyMix (ws.getD (j + 3) []) (j + 4))])
    ((List.range 4).map fun i => (List.range 4).map fun j => blockAt k (4 * i + j))

/-- RK_j = w[4j] ‖ w[4j+1] ‖ w[4j+2] ‖ w[4j+3] (R139). -/
def roundKey (ws : List (List Byte)) (j : Nat) : Block :=
  blockBuild fun i => (ws.getD (4 * j + i / 4) []).getD (i % 4) 0

/-- Rounds 1 to 9 of R140: SubBytes, ShiftRows, MixColumns, AddRoundKey (R138). -/
def aesRound (ws : List (List Byte)) (s : Block) (round : Nat) : Block :=
  blockXor (mixColumns (shiftRows (subBytes s))) (roundKey ws round)

/-- `E(K, X)` of R140. -/
def encryptBlock (k x : Block) : Block :=
  let ws := keyWords k
  let s9 := (List.range 9).foldl (fun s j => aesRound ws s (j + 1)) (blockXor x (roundKey ws 0))
  blockXor (shiftRows (subBytes s9)) (roundKey ws 10)

end Sys2Proof.Machine
end

