-- ==== Sys2Proof/Machine/State.lean ====
section
/-! DEFINITION. The state of one MSC instance (spec/10_state.md R30), every register under the spec's name, and beside it the
host agents and the schedule of turns, which are the model's own fields (spec/00_scope.md R5; notes/assumptions/1.md and 2.md).
The hidden working state of R52 is not held: "A model needs none of it as state". -/

namespace Sys2Proof.Machine

/-- The engine phase of R51. STATUS.BUSY is 1 exactly in `busy`, so it has no storage of its own. -/
inductive Phase where
  | idle
  | busy
deriving DecidableEq, Repr

/-- Whose step comes next (R5, R84): host `k`'s next bus access, the engine's one step (R112), or the instance's reset
input (R300). -/
inductive Turn where
  | host (k : Nat)
  | engine
  | reset
deriving DecidableEq, Repr

/-- Why an access faults its host. -/
inductive Fault where
  /-- BUS_ERROR (spec/60_exceptions.md R266): raised by a host access of a forbidden width, alignment or range (R72) or by a
  narrow CMD write (R77). It is the fault of the host agent, delivered to it as the access's response; the MSC itself goes
  on unchanged, so `step` does not end in it. Safe. -/
  | busError
deriving DecidableEq, Repr

/-- Why the model has no meaning for an instruction. -/
inductive Refusal where
  /-- Raised by an arm of `exec` that has no meaning yet; no arm is left so. Safe. -/
  | notModelled (mnemonic : String)
deriving DecidableEq, Repr

/-- What the bus answers to one access: the value read, the write's completion, or a fault (R266). -/
inductive BusResponse where
  | data (v : Word)
  | written
  | fault (f : Fault)
deriving DecidableEq, Repr

/-- A host bus master (R5): the accesses it has still to make, in program order (R84), and the responses it has got, newest
first. -/
structure HostAgent where
  script : List HostOp
  log : List BusResponse
deriving DecidableEq, Repr

/-- The codes of STATUS.ERRCODE that a command can end with (R261). -/
inductive ErrCode where
  | length
  | auth
  | opcode
deriving DecidableEq, Repr

/-- The whole state. Register storage holds exactly the bits that have storage: reserved bits are RAZ/WI (R76) and are made
by the accessors of Machine/Operands.lean and Machine/Flags.lean. -/
structure State where
  /-- Engine phase (R51), and with it STATUS.BUSY (R33). -/
  phase : Phase
  /-- CMDL, the latched command word (R51). -/
  cmdl : Word
  /-- STATUS.DONE (R33). -/
  done : Bool
  /-- STATUS.ERR (R33). -/
  err : Bool
  /-- STATUS.ERRCODE (R33). -/
  errcode : BitVec 4
  /-- STATUS.LASTOP (R33). -/
  lastop : Byte
  /-- INTEN bits [2:0]: DONEIE, ERRIE, OVRIE (R34). -/
  inten : BitVec 3
  /-- INTFLAG bits [2:0]: DONEIF, ERRIF, OVRIF (R35). -/
  intflag : BitVec 3
  /-- LEN_A bits [15:0] (R36). -/
  lenA : BitVec 16
  /-- LEN_B bits [15:0] (R37). -/
  lenB : BitVec 16
  /-- IVINDEX (R38), a number. -/
  ivindex : Word
  /-- KEY[0..16) (R39). -/
  key : Vector Byte 16
  /-- NONCE[0..13) (R40). -/
  nonce : Vector Byte 13
  /-- PRAND[0..7) (R41). -/
  prand : Vector Byte 7
  /-- MIC_IN[0..8) (R42). -/
  micIn : Vector Byte 8
  /-- RESULT0[0..16) (R43). -/
  result0 : Vector Byte 16
  /-- RESULT1[0..16) (R44). -/
  result1 : Vector Byte 16
  /-- RESULT2 (R45). -/
  result2 : Byte
  /-- The buffers BUF_A, BUF_B and BUF_O (R46, R47, R48), as cells keyed by register-space offset 0x400 to 0xFFF; a cell not
  listed reads as 0, its reset value. -/
  mem : List Host.Cell
  /-- The host agents (model's own; R5, R85). -/
  hosts : List HostAgent
  /-- The turns to come (model's own): where the engine's step falls among the host accesses (R84, R112). -/
  sched : List Turn
deriving DecidableEq, Repr

/-- The state after reset (spec/70_reset_and_hazards.md R300). CMDL has no reset value in the spec ("unspecified and
unobservable"); the model takes 0 (DESIGN CHOICE, notes/assumptions/3.md, unsafe). No host is attached and no turn is fixed
(model's own fields, DESIGN CHOICE, notes/assumptions/2.md, unsafe). -/
def State.reset : State where
  phase := .idle
  cmdl := 0
  done := false
  err := false
  errcode := 0
  lastop := 0
  inten := 0
  intflag := 0
  lenA := 0
  lenB := 0
  ivindex := 0
  key := Vector.replicate 16 0
  nonce := Vector.replicate 13 0
  prand := Vector.replicate 7 0
  micIn := Vector.replicate 8 0
  result0 := Vector.replicate 16 0
  result1 := Vector.replicate 16 0
  result2 := 0
  mem := []
  hosts := []
  sched := []

end Sys2Proof.Machine
end

