-- ==== Sys2Proof/Machine/Flags.lean ====
section
/-! DEFINITION. STATUS, INTEN, INTFLAG and IRQ: the words software reads, the bits of INTFLAG and the error codes
(spec/10_state.md R33 to R35, R50, R53; spec/60_exceptions.md R261, R274, R275). -/

namespace Sys2Proof.Machine

/-- STATUS.BUSY: 1 exactly in the BUSY phase (R51). -/
def State.busy (s : State) : Bool := s.phase == .busy

/-- STATUS as software reads it (R33); reserved bits read 0. -/
def State.statusWord (s : State) : Word :=
  0#8 ++ s.lastop ++ 0#8 ++ s.errcode ++ 0#1 ++ BitVec.ofBool s.err ++ BitVec.ofBool s.done ++ BitVec.ofBool s.busy

/-- INTEN as software reads it (R34). -/
def State.intenWord (s : State) : Word := s.inten.setWidth 32

/-- INTFLAG as software reads it (R35). -/
def State.intflagWord (s : State) : Word := s.intflag.setWidth 32

/-- INTFLAG.DONEIF, bit 0 (R35, R274). -/
def doneIF : BitVec 3 := 0b001

/-- INTFLAG.ERRIF, bit 1 (R35, R274). -/
def errIF : BitVec 3 := 0b010

/-- INTFLAG.OVRIF, bit 2 (R35, R274). -/
def ovrIF : BitVec 3 := 0b100

/-- An event sets its flag, whatever INTEN holds (R275). -/
def raiseFlag (f : BitVec 3) (s : State) : State := { s with intflag := s.intflag ||| f }

/-- W1C (R35): every flag whose bit in the data is 1 is cleared. -/
def clearFlags (f : BitVec 3) (s : State) : State := { s with intflag := s.intflag &&& ~~~f }

/-- The level output of R53. -/
def State.irq (s : State) : Bool :=
  (s.inten.getLsbD 0 && s.intflag.getLsbD 0) || (s.inten.getLsbD 1 && s.intflag.getLsbD 1) ||
    (s.inten.getLsbD 2 && s.intflag.getLsbD 2)

/-- The value of STATUS.ERRCODE for each error (R261). -/
def ErrCode.code : ErrCode → BitVec 4
  | .length => 1
  | .auth => 2
  | .opcode => 3

end Sys2Proof.Machine
end

