-- ==== Sys2Proof/Machine/Memory.lean ====
section
/-! DEFINITION. Memory: a list of (address, byte) cells in one canonical form. It holds the three buffers of
spec/10_state.md R46 to R48; addresses are register-space offsets. -/

namespace Sys2Proof.Machine

/-- What a byte not listed reads as: 0, the reset value of every buffer byte (R46, R47, R48, R300). -/
def Memory.unlisted : Byte := 0

/-- The canonical form: addresses strictly rising, no cell holding the unlisted value. -/
def Memory.wf : List Host.Cell → Bool
  | [] => true
  | [c] => decide (c.2 ≠ Memory.unlisted)
  | c :: d :: rest => decide (c.1 < d.1) && decide (c.2 ≠ Memory.unlisted) && Memory.wf (d :: rest)

/-- The byte at an address. -/
def Memory.get : List Host.Cell → Nat → Byte
  | [], _ => Memory.unlisted
  | c :: rest, a => if c.1 = a then c.2 else Memory.get rest a

/-- Writing one byte, keeping the canonical form. -/
def Memory.set : List Host.Cell → Nat → Byte → List Host.Cell
  | [], a, b => if b = Memory.unlisted then [] else [(a, b)]
  | c :: rest, a, b =>
    if a < c.1 then (if b = Memory.unlisted then c :: rest else (a, b) :: c :: rest)
    else if a = c.1 then (if b = Memory.unlisted then rest else (a, b) :: rest)
    else c :: Memory.set rest a b

/-- Setting every byte of [lo, hi) to the unlisted value. -/
def Memory.clear (m : List Host.Cell) (lo hi : Nat) : List Host.Cell :=
  m.filter fun c => decide (c.1 < lo ∨ hi ≤ c.1)

/-- Writing a string of bytes from an address up. -/
def Memory.store : List Host.Cell → Nat → List Byte → List Host.Cell
  | m, _, [] => m
  | m, a, b :: bs => Memory.store (Memory.set m a b) (a + 1) bs

/-- The n bytes from an address up. -/
def Memory.load (m : List Host.Cell) (a n : Nat) : List Byte :=
  (List.range n).map fun i => Memory.get m (a + i)

end Sys2Proof.Machine
end

