-- ==== Sys2Proof/Machine/Operands.lean ====
section
/-! DEFINITION. The address map and the forms of every operand: where each byte of the register space lives
(spec/20_memory.md R71, R79), the byte lanes of the integer registers (R73, R75), and the operand strings and length ranges
of the commands (spec/30_encoding.md R101, R106; spec/60_exceptions.md R264). -/

namespace Sys2Proof.Machine

/-- The access classes of R79. -/
inductive AccessClass where
  | control
  | input
  | output
deriving DecidableEq, Repr

/-- The access types of R78. -/
inductive AccessType where
  | ro
  | wo
  | rw
  | w1c
  | razwi
deriving DecidableEq, Repr

/-- What an offset holds: the "contents" column of R71. -/
inductive Contents where
  | id
  | cmd
  | status
  | inten
  | intflag
  | lenA
  | lenB
  | ivindex
  | key
  | nonce
  | prand
  | micIn
  | result0
  | result1
  | result2
  | bufA
  | bufB
  | bufO
  | reserved
deriving DecidableEq, Repr

/-- One row of R71. -/
structure MapRow where
  first : Nat
  last : Nat
  contents : Contents
  cls : AccessClass
  kind : AccessType
deriving DecidableEq, Repr

/-- The address map of R71, row by row. -/
def addressMap : List MapRow :=
  [⟨0x000, 0x003, .id, .control, .ro⟩,
   ⟨0x004, 0x007, .cmd, .control, .wo⟩,
   ⟨0x008, 0x00B, .status, .control, .ro⟩,
   ⟨0x00C, 0x00F, .inten, .control, .rw⟩,
   ⟨0x010, 0x013, .intflag, .control, .w1c⟩,
   ⟨0x014, 0x017, .lenA, .input, .rw⟩,
   ⟨0x018, 0x01B, .lenB, .input, .rw⟩,
   ⟨0x01C, 0x01F, .ivindex, .input, .rw⟩,
   ⟨0x020, 0x02F, .key, .input, .wo⟩,
   ⟨0x030, 0x03C, .nonce, .input, .rw⟩,
   ⟨0x03D, 0x03F, .reserved, .input, .razwi⟩,
   ⟨0x040, 0x046, .prand, .input, .rw⟩,
   ⟨0x047, 0x047, .reserved, .input, .razwi⟩,
   ⟨0x048, 0x04F, .micIn, .input, .rw⟩,
   ⟨0x050, 0x05F, .result0, .output, .ro⟩,
   ⟨0x060, 0x06F, .result1, .output, .ro⟩,
   ⟨0x070, 0x070, .result2, .output, .ro⟩,
   ⟨0x071, 0x073, .reserved, .output, .razwi⟩,
   ⟨0x074, 0x3FF, .reserved, .control, .razwi⟩,
   ⟨0x400, 0x7FF, .bufA, .input, .rw⟩,
   ⟨0x800, 0xBFF, .bufB, .input, .rw⟩,
   ⟨0xC00, 0xFFF, .bufO, .output, .ro⟩]

/-- The row an offset belongs to (R71: "Every offset belongs to exactly one row"). -/
def rowOf (off : Nat) : Option MapRow :=
  addressMap.find? fun r => decide (r.first ≤ off) && decide (off ≤ r.last)

/-- Base offsets of the buffers (R46, R47, R48). -/
def bufABase : Nat := 0x400
def bufBBase : Nat := 0x800
def bufOBase : Nat := 0xC00

/-- Byte i of an integer register, bits [8i+7:8i] (R75). -/
def laneOf (v : Word) (i : Nat) : Byte := v.extractLsb' (8 * i) 8

/-- An integer register with byte i replaced (R75: a narrow write "changes only the addressed bytes of the value"). -/
def setLane (v : Word) (i : Nat) (b : Byte) : Word :=
  (v &&& ~~~((0xFF#32) <<< (8 * i))) ||| (b.setWidth 32 <<< (8 * i))

/-- Byte i of the stored register or buffer `c`, as a read returns it outside the busy window (R71, R78). KEY and CMD read
0 (R39, R32); reserved bytes read 0 (R76). -/
def storedByte (s : State) (c : Contents) (i : Nat) : Byte :=
  match c with
  | .id => laneOf Config.coreId i
  | .cmd => 0
  | .status => laneOf s.statusWord i
  | .inten => laneOf s.intenWord i
  | .intflag => laneOf s.intflagWord i
  | .lenA => laneOf (s.lenA.setWidth 32) i
  | .lenB => laneOf (s.lenB.setWidth 32) i
  | .ivindex => laneOf s.ivindex i
  | .key => 0
  | .nonce => s.nonce[i]?.getD 0
  | .prand => s.prand[i]?.getD 0
  | .micIn => s.micIn[i]?.getD 0
  | .result0 => s.result0[i]?.getD 0
  | .result1 => s.result1[i]?.getD 0
  | .result2 => s.result2
  | .bufA => Memory.get s.mem (bufABase + i)
  | .bufB => Memory.get s.mem (bufBBase + i)
  | .bufO => Memory.get s.mem (bufOBase + i)
  | .reserved => 0

/-- Storing byte i of the register or buffer `c` (R78): RO and RAZ/WI bytes ignore it, INTFLAG clears the flags written as 1
(R35), the fields of INTEN, LEN_A and LEN_B take the bits that have storage (R34, R36, R37). CMD is no storage (R32): a
command is issued by `cmdWrite`, never by a byte. -/
def putByte (c : Contents) (i : Nat) (b : Byte) (s : State) : State :=
  match c with
  | .id => s
  | .cmd => s
  | .status => s
  | .inten => { s with inten := (setLane s.intenWord i b).setWidth 3 }
  | .intflag => clearFlags ((setLane 0 i b).setWidth 3) s
  | .lenA => { s with lenA := (setLane (s.lenA.setWidth 32) i b).setWidth 16 }
  | .lenB => { s with lenB := (setLane (s.lenB.setWidth 32) i b).setWidth 16 }
  | .ivindex => { s with ivindex := setLane s.ivindex i b }
  | .key => { s with key := s.key.setIfInBounds i b }
  | .nonce => { s with nonce := s.nonce.setIfInBounds i b }
  | .prand => { s with prand := s.prand.setIfInBounds i b }
  | .micIn => { s with micIn := s.micIn.setIfInBounds i b }
  | .result0 => s
  | .result1 => s
  | .result2 => s
  | .bufA => { s with mem := Memory.set s.mem (bufABase + i) b }
  | .bufB => { s with mem := Memory.set s.mem (bufBBase + i) b }
  | .bufO => s
  | .reserved => s

/-- Operand A, the byte string `BUF_A[0..LEN_A)` (R36, R46). -/
def State.operandA (s : State) : List Byte := Memory.load s.mem bufABase s.lenA.toNat

/-- Operand B, the byte string `BUF_B[0..LEN_B)` (R37, R47). -/
def State.operandB (s : State) : List Byte := Memory.load s.mem bufBBase s.lenB.toNat

/-- `BUF_A[0..16)`, the block operand of AES (R142). -/
def State.blockA (s : State) : Block := blockOf (Memory.load s.mem bufABase 16)

/-- `MIC_IN[0..M)`, the received MIC (R42). -/
def State.receivedMic (s : State) (m : MicSize) : List Byte := s.micIn.toList.take m.bytes

/-- A length operand in 1..1024 (R264). -/
def lengthOk (len : BitVec 16) : Bool := decide (1 ≤ len.toNat) && decide (len.toNat ≤ Config.bufBytes)

/-- A length operand in 0..1024, the range of the CCM commands (R264). -/
def ccmLengthOk (len : BitVec 16) : Bool := decide (len.toNat ≤ Config.bufBytes)

/-- The access a host is refused with BUS_ERROR: width not 1, 2 or 4, offset not a multiple of the width, end past 0x1000
(R72), or a CMD write of 1 or 2 bytes (R77). -/
def accessRefused : Access → Bool
  | .read off n => !(n == 1 || n == 2 || n == 4) || off % n != 0 || decide (Config.spaceBytes < off + n)
  | .write off n _ =>
    !(n == 1 || n == 2 || n == 4) || off % n != 0 || decide (Config.spaceBytes < off + n) ||
      (n != 4 && decide (4 ≤ off) && decide (off ≤ 7))

end Sys2Proof.Machine
end

