-- ==== Sys2Proof/Machine/Ops.lean ====
section
/-! DEFINITION. The shared operations: bus reads and writes (spec/20_memory.md), acceptance, completion, the scrub
(spec/30_encoding.md R110 to R116), and taking a command error, which is this machine's only exception
(spec/60_exceptions.md R260, R270). -/

namespace Sys2Proof.Machine

/-- The result of R112's `Exec`: `Ok(r0, r1, r2, o)` of R11, or `Error(code)` of R262. -/
inductive CmdResult where
  | ok (r0 r1 : Block) (r2 : Byte) (o : List Byte)
  | error (c : ErrCode)
deriving DecidableEq, Repr

/-- Acceptance of the command word w (R111): latch it, BUSY, clear DONE, ERR, ERRCODE and every output. -/
def accept (w : Word) (s : State) : State :=
  { s with
    cmdl := w, phase := .busy, done := false, err := false, errcode := 0, lastop := w.extractLsb' 0 8,
    result0 := zeroBlock, result1 := zeroBlock, result2 := 0, mem := Memory.clear s.mem 0xC00 0x1000 }

/-- The overrun event (R267): only INTFLAG.OVRIF is set. -/
def overrun (s : State) : State := raiseFlag ovrIF s

/-- A 32-bit write to CMD: accepted while IDLE (R110), dropped with an overrun while BUSY (R116). -/
def cmdWrite (w : Word) (s : State) : State := if s.busy then overrun s else accept w s

/-- Successful completion (R113): outputs written, BUF_O from offset 0, DONE and DONEIF set. -/
def succeed (r0 r1 : Block) (r2 : Byte) (o : List Byte) (s : State) : State :=
  { s with
    result0 := r0, result1 := r1, result2 := r2, mem := Memory.store s.mem bufOBase o,
    done := true, err := false, errcode := 0, intflag := s.intflag ||| doneIF }

/-- Failed completion (R270): no output is written; ERR, ERRCODE and ERRIF are set. -/
def fail (c : ErrCode) (s : State) : State :=
  { s with done := false, err := true, errcode := c.code, intflag := s.intflag ||| errIF }

/-- The scrub (R114): every input register and both input buffers to zero. -/
def scrub (s : State) : State :=
  { s with
    lenA := 0, lenB := 0, ivindex := 0, key := zeroBlock, nonce := Vector.replicate 13 0, prand := Vector.replicate 7 0,
    micIn := Vector.replicate 8 0, mem := Memory.clear s.mem 0x400 0xC00 }

/-- The engine leaves BUSY (R112). CMDL keeps the last word, which nothing reads while IDLE (spec/93_implementation_defined.md
U13; DESIGN CHOICE, notes/assumptions/4.md, unsafe). -/
def retire (s : State) : State := { s with phase := .idle }

/-- TAKING AN ERROR, the one exception of this machine (R262, R270): record it, scrub, go IDLE. Nothing else is saved: no
pc, mode, stack or vector. There is no return from it (R271): the next acceptance clears DONE, ERR and ERRCODE (`accept`)
and a W1C write clears ERRIF (`clearFlags`). -/
def takeError (c : ErrCode) (s : State) : State := retire (scrub (fail c s))

/-- The end of a successful command: R113, then the scrub, then IDLE (R112). -/
def finish (r0 r1 : Block) (r2 : Byte) (o : List Byte) (s : State) : State := retire (scrub (succeed r0 r1 r2 o s))

/-- The completion step for a computed result (R112): one indivisible step (R82). -/
def complete : CmdResult → State → State
  | .ok r0 r1 r2 o, s => finish r0 r1 r2 o s
  | .error c, s => takeError c s

/-- The byte a host read returns at an offset (R71): 0 for an output byte while BUSY (R81). -/
def readByte (s : State) (off : Nat) : Byte :=
  match rowOf off with
  | none => 0
  | some r => if r.cls = .output ∧ s.busy = true then 0 else storedByte s r.contents (off - r.first)

/-- One byte of a host write other than to CMD: dropped with an overrun for an input byte while BUSY (R80). -/
def writeByte (off : Nat) (b : Byte) (s : State) : State :=
  match rowOf off with
  | none => s
  | some r => if r.cls = .input ∧ s.busy = true then overrun s else putByte r.contents (off - r.first) b s

/-- The n-byte bus value a read returns: byte off + i in bits [8i+7:8i] (R73). -/
def readBytes (s : State) (off : Nat) : Nat → Word
  | 0 => 0
  | n + 1 => setLane (readBytes s off n) n (readByte s (off + n))

/-- An n-byte write as its one-byte writes, lane 0 first (R73). -/
def writeBytes (off : Nat) (v : Word) : Nat → State → State
  | 0, s => s
  | n + 1, s => writeByte (off + n) (laneOf v n) (writeBytes off v n s)

/-- A write the bus delivers: a 32-bit write at 0x004 issues a command (R110), any other stores bytes. -/
def deliverWrite (off n : Nat) (v : Word) (s : State) : State :=
  if off = 4 then cmdWrite v s else writeBytes off v n s

/-- One host bus access, one indivisible step (R82): its response, and the state after it. A refused access gets BUS_ERROR
and changes nothing (R266); a read changes nothing (R83). -/
def busAccess (a : Access) (s : State) : State × BusResponse :=
  if accessRefused a then (s, .fault .busError)
  else
    match a with
    | .read off n => (s, .data (readBytes s off n))
    | .write off n v => (deliverWrite off n v s, .written)

/-- Reset (R300, R301): every piece of MSC state to its reset value, a command in progress aborted. The host agents and the
turns to come, which are not MSC state, stay. -/
def resetCore (s : State) : State := { State.reset with hosts := s.hosts, sched := s.sched }

end Sys2Proof.Machine
end

