-- ==== Sys2Proof/Machine/Block.lean ====
section
/-! DEFINITION. The commands of spec/40_block.md: CLEAR (R130) and AES (R142). A meaning is the engine's completion step of
R112 for that command: it takes the machine in BUSY to the state after the completion. -/

namespace Sys2Proof.Machine

/-- `Exec` of CLEAR (R130). -/
def clearResult : CmdResult := .ok zeroBlock zeroBlock 0x00 []

/-- CLEAR (R130). -/
def execClear (s : State) : Host.Outcome State Fault Refusal := .next (complete clearResult s)

/-- `Exec` of AES (R142). -/
def aesResult (s : State) : CmdResult :=
  if s.lenA.toNat ≠ 16 then .error .length else .ok (encryptBlock s.key s.blockA) zeroBlock 0x00 []

/-- AES (R142). -/
def execAes (s : State) : Host.Outcome State Fault Refusal := .next (complete (aesResult s) s)

end Sys2Proof.Machine
end

