-- ==== Sys2Proof/Machine/CcmEngine.lean ====
section
/-! DEFINITION. The CCM engine: B0 and counter blocks, CBC-MAC, CTR keystream, MIC truncation and comparison
(spec/42_ccm.md R190 to R196). -/

namespace Sys2Proof.Machine

/-- `flags(M)` of R190 with Adata = 0 and L = 2. -/
def ccmFlags (m : Nat) : Byte := BitVec.ofNat 8 ((0 <<< 6) ||| (((m - 2) / 2) <<< 3) ||| (2 - 1))

/-- B0 of R190: flags(M) ‖ N ‖ be16(ℓ). -/
def ccmB0 (n : Vector Byte 13) (m len : Nat) : Block := blockOf (ccmFlags m :: n.toList ++ be16 len)

/-- A_i of R192: 0x01 ‖ N ‖ be16(i). -/
def ccmCounter (n : Vector Byte 13) (i : Nat) : Block := blockOf (0x01 :: n.toList ++ be16 i)

/-- S_i = E(K, A_i) (R192). -/
def ccmStream (k : Block) (n : Vector Byte 13) (i : Nat) : Block := encryptBlock k (ccmCounter n i)

/-- `cbcmac(K, N, M, P)` of R193: B0, then every plaintext block, the last one zero-padded. -/
def cbcmac (k : Block) (n : Vector Byte 13) (m : Nat) (p : List Byte) : Block :=
  (List.range (ceil16 p.length)).foldl (fun x j => encryptBlock k (blockXor x (blockOfString p j)))
    (encryptBlock k (ccmB0 n m p.length))

/-- S_1 ‖ S_2 ‖ ... ‖ S_b (R194). -/
def keystream (k : Block) (n : Vector Byte 13) (b : Nat) : List Byte :=
  (List.range b).flatMap fun i => (ccmStream k n (i + 1)).toList

/-- `ctr(K, N, D)` of R194: D XOR the keystream cut to D's length. -/
def ctr (k : Block) (n : Vector Byte 13) (d : List Byte) : List Byte :=
  xorBytes d ((keystream k n (ceil16 d.length)).take d.length)

/-- `mic(K, N, M, P)` of R195: T[0..M) XOR S_0[0..M). -/
def ccmMic (k : Block) (n : Vector Byte 13) (m : Nat) (p : List Byte) : List Byte :=
  xorBytes ((cbcmac k n m p).toList.take m) ((ccmStream k n 0).toList.take m)

/-- The comparison of R196: the OR over all M bytes of U[t] XOR R[t] is 0. -/
def micEqual (u r : List Byte) : Bool := (xorBytes u r).foldl (· ||| ·) 0 == 0

end Sys2Proof.Machine
end

