-- ==== Sys2Proof/Machine/Ccm.lean ====
section
/-! DEFINITION. The commands of spec/42_ccm.md: CCM_ENC (R197) and CCM_DEC (R198). -/

namespace Sys2Proof.Machine

/-- `Exec` of CCM_ENC (R197): RESULT0 is the MIC followed by zeros, BUF_O the ciphertext. -/
def ccmEncResult (m : MicSize) (s : State) : CmdResult :=
  if ccmLengthOk s.lenA then
    .ok (blockOf (ccmMic s.key s.nonce m.bytes s.operandA)) zeroBlock 0x00 (ctr s.key s.nonce s.operandA)
  else .error .length

/-- CCM_ENC (R197). -/
def execCcmEnc (m : MicSize) (s : State) : Host.Outcome State Fault Refusal := .next (complete (ccmEncResult m s) s)

/-- `Exec` of CCM_DEC (R198), fail-closed: the plaintext is an output only when the MIC over it matches. -/
def ccmDecResult (m : MicSize) (s : State) : CmdResult :=
  if ccmLengthOk s.lenA then
    let p := ctr s.key s.nonce s.operandA
    if micEqual (ccmMic s.key s.nonce m.bytes p) (s.receivedMic m) then .ok zeroBlock zeroBlock 0x00 p
    else .error .auth
  else .error .length

/-- CCM_DEC (R198). -/
def execCcmDec (m : MicSize) (s : State) : Host.Outcome State Fault Refusal := .next (complete (ccmDecResult m s) s)

end Sys2Proof.Machine
end

