-- ==== Sys2Proof/Machine/Cmac.lean ====
section
/-! DEFINITION. CMAC and the salt s1 (spec/41_mac.md R170 to R174). -/

namespace Sys2Proof.Machine

/-- Doubling in GF(2^128) (R170). -/
def dbl (x : Block) : Block :=
  bytes16 ((int128 x <<< 1) ^^^ (if (int128 x).getLsbD 127 then 0x87 else 0))

/-- Subkey K1 = dbl(L), L = E(K, 0^128) (R171). -/
def subkey1 (k : Block) : Block := dbl (encryptBlock k zeroBlock)

/-- Subkey K2 = dbl(K1) (R171). -/
def subkey2 (k : Block) : Block := dbl (subkey1 k)

/-- The number n of blocks of a message (R172): an empty message has one. -/
def cmacBlocks (m : List Byte) : Nat := if m.length = 0 then 1 else ceil16 m.length

/-- M_last of R172: the last bytes R with K1 when the last block is complete, R ‖ 0x80 ‖ zeros with K2 otherwise. -/
def lastBlock (k : Block) (m : List Byte) : Block :=
  let r := m.drop (16 * (cmacBlocks m - 1))
  if m.length ≠ 0 ∧ m.length % 16 = 0 then blockXor (blockOf r) (subkey1 k)
  else blockXor (blockOf (r ++ [0x80])) (subkey2 k)

/-- The chaining value before the last block (R173): X = E(K, X XOR M_i) for the first n blocks. -/
def cmacChain (k : Block) (m : List Byte) (n : Nat) : Block :=
  (List.range n).foldl (fun x i => encryptBlock k (blockXor x (blockOfString m i))) zeroBlock

/-- `cmac(K, M)` of R173. -/
def cmac (k : Block) (m : List Byte) : Block :=
  encryptBlock k (blockXor (cmacChain k m (cmacBlocks m - 1)) (lastBlock k m))

/-- `s1(M)` of R174. -/
def s1Fn (m : List Byte) : Block := cmac zeroBlock m

end Sys2Proof.Machine
end

