-- ==== Sys2Proof/Machine/KdfEngine.lean ====
section
/-! DEFINITION. The key-derivation functions k1, k2, k3, k4 (spec/43_kdf.md R220 to R224). The salts of R224 are computed
from s1, which the rule allows. -/

namespace Sys2Proof.Machine

/-- The ASCII strings of R9 and R221 to R223. -/
def asciiSmk2 : List Byte := [0x73, 0x6D, 0x6B, 0x32]
def asciiSmk3 : List Byte := [0x73, 0x6D, 0x6B, 0x33]
def asciiSmk4 : List Byte := [0x73, 0x6D, 0x6B, 0x34]
def asciiId64 : List Byte := [0x69, 0x64, 0x36, 0x34]
def asciiId6 : List Byte := [0x69, 0x64, 0x36]

/-- `k1(N, SALT, P)` of R220. -/
def k1Fn (n : List Byte) (salt : Block) (p : List Byte) : Block := cmac (cmac salt n) p

/-- T of R221. -/
def k2T (n : List Byte) : Block := cmac (s1Fn asciiSmk2) n

/-- T1, T2, T3 of R221. -/
def k2T1 (n p : List Byte) : Block := cmac (k2T n) (p ++ [0x01])
def k2T2 (n p : List Byte) : Block := cmac (k2T n) ((k2T1 n p).toList ++ p ++ [0x02])
def k2T3 (n p : List Byte) : Block := cmac (k2T n) ((k2T2 n p).toList ++ p ++ [0x03])

/-- NID of R221: the low 7 bits of T1. -/
def k2Nid (n p : List Byte) : Byte := blockAt (k2T1 n p) 15 &&& 0x7F

/-- `k3(N)` of R222: bytes 8 to 15 of the final CMAC. -/
def k3Fn (n : List Byte) : List Byte := (cmac (cmac (s1Fn asciiSmk3) n) (asciiId64 ++ [0x01])).toList.drop 8

/-- `k4(N)` of R223: the low 6 bits of the final CMAC. -/
def k4Fn (n : List Byte) : Byte := blockAt (cmac (cmac (s1Fn asciiSmk4) n) (asciiId6 ++ [0x01])) 15 &&& 0x3F

end Sys2Proof.Machine
end

