-- ==== Sys2Proof/Machine/Kdf.lean ====
section
/-! DEFINITION. The commands of spec/43_kdf.md: K1 (R225), K2 (R226), K3 (R227), K4 (R228). -/

namespace Sys2Proof.Machine

/-- `Exec` of K1 (R225): N in BUF_A, SALT in KEY, P in BUF_B. -/
def k1Result (s : State) : CmdResult :=
  if lengthOk s.lenA ∧ lengthOk s.lenB then .ok (k1Fn s.operandA s.key s.operandB) zeroBlock 0x00 [] else .error .length

/-- K1 (R225). -/
def execK1 (s : State) : Host.Outcome State Fault Refusal := .next (complete (k1Result s) s)

/-- `Exec` of K2 (R226): EncryptionKey, PrivacyKey and NID in RESULT0, RESULT1 and RESULT2. -/
def k2Result (s : State) : CmdResult :=
  if lengthOk s.lenA ∧ lengthOk s.lenB then
    .ok (k2T2 s.operandA s.operandB) (k2T3 s.operandA s.operandB) (k2Nid s.operandA s.operandB) []
  else .error .length

/-- K2 (R226). -/
def execK2 (s : State) : Host.Outcome State Fault Refusal := .next (complete (k2Result s) s)

/-- `Exec` of K3 (R227): the 8 bytes, then zeros. -/
def k3Result (s : State) : CmdResult :=
  if lengthOk s.lenA then .ok (blockOf (k3Fn s.operandA)) zeroBlock 0x00 [] else .error .length

/-- K3 (R227). -/
def execK3 (s : State) : Host.Outcome State Fault Refusal := .next (complete (k3Result s) s)

/-- `Exec` of K4 (R228): the value in byte 0, then zeros. -/
def k4Result (s : State) : CmdResult :=
  if lengthOk s.lenA then .ok (blockOf [k4Fn s.operandA]) zeroBlock 0x00 [] else .error .length

/-- K4 (R228). -/
def execK4 (s : State) : Host.Outcome State Fault Refusal := .next (complete (k4Result s) s)

end Sys2Proof.Machine
end

