-- ==== Sys2Proof/Machine/Mac.lean ====
section
/-! DEFINITION. The commands of spec/41_mac.md: CMAC (R175) and S1 (R176). -/

namespace Sys2Proof.Machine

/-- `Exec` of CMAC (R175). -/
def cmacResult (s : State) : CmdResult :=
  if lengthOk s.lenA then .ok (cmac s.key s.operandA) zeroBlock 0x00 [] else .error .length

/-- CMAC (R175). -/
def execCmac (s : State) : Host.Outcome State Fault Refusal := .next (complete (cmacResult s) s)

/-- `Exec` of S1 (R176). -/
def s1Result (s : State) : CmdResult :=
  if lengthOk s.lenA then .ok (s1Fn s.operandA) zeroBlock 0x00 [] else .error .length

/-- S1 (R176). -/
def execS1 (s : State) : Host.Outcome State Fault Refusal := .next (complete (s1Result s) s)

end Sys2Proof.Machine
end

