-- ==== Sys2Proof/Machine/ObfEngine.lean ====
section
/-! DEFINITION. The header-obfuscation transform (spec/44_obfuscation.md R240 to R242). -/

namespace Sys2Proof.Machine

/-- The Privacy Plaintext of R240: zeros(5) ‖ be32(iv) ‖ PR. -/
def privacyPlaintext (iv : Word) (pr : Vector Byte 7) : Block := blockOf (zeros 5 ++ be32 iv ++ pr.toList)

/-- PECB of R241. -/
def pecb (pk : Block) (iv : Word) (pr : Vector Byte 7) : Block := encryptBlock pk (privacyPlaintext iv pr)

/-- `obf(D, PR, iv, PK)` of R242: the first min(6, ℓ) bytes XORed with PECB, the rest copied. -/
def obfuscate (d : List Byte) (pr : Vector Byte 7) (iv : Word) (pk : Block) : List Byte :=
  xorBytes (d.take (min 6 d.length)) ((pecb pk iv pr).toList.take (min 6 d.length)) ++ d.drop (min 6 d.length)

end Sys2Proof.Machine
end

