-- ==== Sys2Proof/Machine/Obfuscation.lean ====
section
/-! DEFINITION. The commands of spec/44_obfuscation.md: OBF (R244) and DEOBF (R245). -/

namespace Sys2Proof.Machine

/-- `Exec` of OBF (R244). -/
def obfResult (s : State) : CmdResult :=
  if lengthOk s.lenA then .ok zeroBlock zeroBlock 0x00 (obfuscate s.operandA s.prand s.ivindex s.key)
  else .error .length

/-- OBF (R244). -/
def execObf (s : State) : Host.Outcome State Fault Refusal := .next (complete (obfResult s) s)

/-- `Exec` of DEOBF (R245): the identical transform. -/
def deobfResult (s : State) : CmdResult :=
  if lengthOk s.lenA then .ok zeroBlock zeroBlock 0x00 (obfuscate s.operandA s.prand s.ivindex s.key)
  else .error .length

/-- DEOBF (R245). -/
def execDeobf (s : State) : Host.Outcome State Fault Refusal := .next (complete (deobfResult s) s)

end Sys2Proof.Machine
end

