-- ==== Sys2Proof/Machine/Dispatch.lean ====
section
/-! DEFINITION. The meaning of every command: the case split of `Exec` (spec/30_encoding.md R112). -/

namespace Sys2Proof.Machine

def exec (i : Instr) (s : State) : Host.Outcome State Fault Refusal :=
  match i with
  | .clear => Sys2Proof.Machine.execClear s
  | .aes => Sys2Proof.Machine.execAes s
  | .cmac => Sys2Proof.Machine.execCmac s
  | .s1 => Sys2Proof.Machine.execS1 s
  | .ccmEnc m => Sys2Proof.Machine.execCcmEnc m s
  | .ccmDec m => Sys2Proof.Machine.execCcmDec m s
  | .k1 => Sys2Proof.Machine.execK1 s
  | .k2 => Sys2Proof.Machine.execK2 s
  | .k3 => Sys2Proof.Machine.execK3 s
  | .k4 => Sys2Proof.Machine.execK4 s
  | .obf => Sys2Proof.Machine.execObf s
  | .deobf => Sys2Proof.Machine.execDeobf s

end Sys2Proof.Machine
end

