-- ==== Sys2Proof/Machine/Hosts.lean ====
section
/-! DEFINITION. The host agents' turns (spec/00_scope.md R5; spec/20_memory.md R84, R85): which access a host makes next, and
how its script and its responses move on. -/

namespace Sys2Proof.Machine

/-- The access a script entry makes; `wait` of R109 reads STATUS. -/
def HostOp.toAccess : HostOp → Access
  | .access a => a
  | .wait => .read 0x008 4

/-- Whether an entry stays at the head of its script: `wait` repeats until bit 0 of the value read is 0 (R109). -/
def HostOp.repeats : HostOp → BusResponse → Bool
  | .wait, .data v => v.getLsbD 0
  | .wait, .written => false
  | .wait, .fault _ => false
  | .access _, _ => false

/-- Host k's record, its turn taken: the entry done (or to be repeated) and the response received. -/
def HostAgent.advance (h : HostAgent) (op : HostOp) (rest : List HostOp) (r : BusResponse) : HostAgent :=
  { script := if HostOp.repeats op r then op :: rest else rest, log := r :: h.log }

/-- One access by host k, one indivisible step (R82). A host that does not exist or has no access left does nothing. -/
def hostTurn (k : Nat) (s : State) : State :=
  match s.hosts[k]? with
  | none => s
  | some h =>
    match h.script with
    | [] => s
    | op :: rest =>
      let (s', r) := busAccess (HostOp.toAccess op) s
      { s' with hosts := s'.hosts.set k (HostAgent.advance h op rest r) }

/-- The first host that has an access left. -/
def firstReady (s : State) : Option Nat := s.hosts.findIdx? fun h => !h.script.isEmpty

end Sys2Proof.Machine
end

