-- ==== Sys2Proof/Machine/Engine.lean ====
section
/-! DEFINITION. The engine's one step (spec/30_encoding.md R112) and whose turn comes next (spec/20_memory.md R84, R85). -/

namespace Sys2Proof.Machine

/-- `Exec(CMDL)` and its completion (R112): the decoded command's meaning, or ERR_OPCODE for an illegal word (R103, R263). -/
def completionStep (s : State) : Host.Outcome State Fault Refusal :=
  match decode s.cmdl with
  | .ok i => exec i s
  | .error _ => .next (takeError .opcode s)

/-- The engine's turn: its step is enabled only in BUSY (R112); while IDLE it does nothing (R117). -/
def engineTurn (s : State) : Host.Outcome State Fault Refusal :=
  if s.busy then completionStep s else .next s

/-- The step of the agent whose turn it is. -/
def takeTurn (t : Turn) (s : State) : Host.Outcome State Fault Refusal :=
  match t with
  | .host k => .next (hostTurn k s)
  | .engine => engineTurn s
  | .reset => .next (resetCore s)

/-- The turn after the given ones: a command in progress completes (the fairness of R112), and with none in progress the
first host that has an access left makes it (DESIGN CHOICE, notes/assumptions/1.md). -/
def defaultTurn (s : State) : Turn :=
  if s.busy then .engine
  else
    match firstReady s with
    | some k => .host k
    | none => .engine

/-- One turn: the first of the turns to come, or the default one. -/
def nextTurn (s : State) : Host.Outcome State Fault Refusal :=
  match s.sched with
  | [] => takeTurn (defaultTurn s) s
  | t :: rest => takeTurn t { s with sched := rest }

/-- The state in which the engine's next step runs the command word w (R88, R111): w accepted, and the engine's turn next. -/
def latchCommand (w : Word) (s : State) : State := { accept w s with sched := .engine :: s.sched }

end Sys2Proof.Machine
end

