-- ==== Sys2Proof/Machine/Step.lean ====
section
/-! DEFINITION. One step of the machine: one turn of one agent (spec/00_scope.md R5). -/

namespace Sys2Proof.Machine

/-- One indivisible step (spec/20_memory.md R82). -/
def step (s : State) : Host.Outcome State Fault Refusal := nextTurn s

/-- s with a command latched where the engine's next step takes it (notes/assumptions/7.md). -/
def State.withFetchWord (s : State) (nbits w : Nat) : State := latchCommand (BitVec.ofNat 32 (w % 2 ^ nbits)) s

end Sys2Proof.Machine
end

