-- ==== Sys2Proof/Machine/Script.lean ====
section
/-! DEFINITION. Host scripts: the bus access each statement of spec/30_encoding.md R108 is, and the expansion of each
pseudo-statement of R109. -/

namespace Sys2Proof.Machine

/-- The one bus access of a statement (R108). -/
def Stmt.toAccess : Stmt → Access
  | .wr8 off v => .write off 1 (v.setWidth 32)
  | .wr16 off v => .write off 2 (v.setWidth 32)
  | .wr32 off v => .write off 4 v
  | .rd8 off => .read off 1
  | .rd16 off => .read off 2
  | .rd32 off => .read off 4
  | .cmd i => .write 0x004 4 (encode i)
  | .cmdWord w => .write 0x004 4 w

/-- The first offset of a register or buffer (R109, spec/20_memory.md R71). -/
def RegName.base : RegName → Nat
  | .key => 0x020
  | .nonce => 0x030
  | .prand => 0x040
  | .micIn => 0x048
  | .bufA => 0x400
  | .bufB => 0x800
  | .result0 => 0x050
  | .result1 => 0x060
  | .result2 => 0x070
  | .bufO => 0xC00
  | .lenA => 0x014
  | .lenB => 0x018
  | .ivindex => 0x01C

/-- The statements of `load REG, b0 ... bk-1` (R109): a wr32 for every four bytes, then a wr8 for each byte left. -/
def loadStmts : Nat → List Byte → List Stmt
  | off, b0 :: b1 :: b2 :: b3 :: rest => .wr32 off (wordOfBytes b0 b1 b2 b3) :: loadStmts (off + 4) rest
  | off, b :: rest => .wr8 off b :: loadStmts (off + 1) rest
  | _, [] => []

/-- A statement as an entry of a host's script. -/
def Stmt.toOp (t : Stmt) : HostOp := .access (Stmt.toAccess t)

/-- The expansion of a pseudo-statement (R109). -/
def Pseudo.expand : Pseudo → List HostOp
  | .load r bytes => (loadStmts (RegName.base r) bytes).map Stmt.toOp
  | .lena n => [Stmt.toOp (.wr32 0x014 n)]
  | .lenb n => [Stmt.toOp (.wr32 0x018 n)]
  | .iv v => [Stmt.toOp (.wr32 0x01C v)]
  | .wait => [.wait]
  | .run i => [Stmt.toOp (.cmd i), .wait]
  | .read r n => (List.range n).map fun i => Stmt.toOp (.rd8 (RegName.base r + i))
  | .ack => [Stmt.toOp (.wr32 0x010 0x00000007)]

/-- A whole script of pseudo-statements. -/
def scriptOf (ps : List Pseudo) : List HostOp := ps.flatMap Pseudo.expand

end Sys2Proof.Machine
end

