-- ==== Sys2Proof/Machine/Platform.lean ====
section
/-! DEFINITION. A platform of several MSC units: BASE_ADDR and N_INSTANCES of spec/00_scope.md R8, placed at
`BASE_ADDR + offset` in the host's map (spec/20_memory.md R70), sharing nothing (spec/60_exceptions.md R283). -/

namespace Sys2Proof.Machine

/-- One unit: its BASE_ADDR and its state. -/
structure Placed where
  base : Nat
  core : State
deriving DecidableEq, Repr

/-- The units of a platform; N_INSTANCES is the length. -/
structure Platform where
  units : List Placed
deriving DecidableEq, Repr

/-- R8: at least one unit, and every BASE_ADDR a multiple of 4096. -/
def Platform.wellPlaced (p : Platform) : Bool :=
  !p.units.isEmpty && p.units.all fun u => u.base % Config.spaceBytes == 0

/-- Whether a host address falls in a unit's register space (R70). -/
def placedAt (addr : Nat) (u : Placed) : Bool := decide (u.base ≤ addr) && decide (addr < u.base + Config.spaceBytes)

/-- A host access by host address, as the offset access it is in a unit (R70). -/
def relocate (base : Nat) : Access → Access
  | .read addr n => .read (addr - base) n
  | .write addr n v => .write (addr - base) n v

/-- A host access by host address: served by the unit whose register space holds its address (R70); `none` when no unit
does, which is the platform's affair. -/
def Platform.access (a : Access) (p : Platform) : Option (Platform × BusResponse) :=
  match p.units.findIdx? (placedAt a.offset) with
  | none => none
  | some k =>
    match p.units[k]? with
    | none => none
    | some u =>
      let (s', r) := busAccess (relocate u.base a) u.core
      some ({ units := p.units.set k { u with core := s' } }, r)

/-- One step of unit k (R283). -/
def Platform.stepUnit (k : Nat) (p : Platform) : Host.Outcome Platform Fault Refusal :=
  match p.units[k]? with
  | none => .next p
  | some u =>
    match nextTurn u.core with
    | .next s' => .next { units := p.units.set k { u with core := s' } }
    | .fault r => .fault r
    | .refused r => .refused r

/-- The IRQ outputs of the units, one each (R283). -/
def Platform.irqs (p : Platform) : List Bool := p.units.map fun u => u.core.irq

end Sys2Proof.Machine
end

