-- ==== Sys2Proof/Machine/Timed.lean ====
section
/-! DEFINITION. The machine with its clock: LATENCY of spec/00_scope.md R8 and spec/70_reset_and_hazards.md R312 as an argument.
Machine/Step.lean is the "model without time" of R112; here a completion happens exactly LATENCY core clock cycles after its
acceptance, and host accesses fall between cycles at any point. -/

namespace Sys2Proof.Machine

/-- The core, and the number of core clock cycles until the command in progress completes. -/
structure Timed where
  core : State
  left : Nat
deriving DecidableEq, Repr

/-- LATENCY(w[7:0], LEN_A, LEN_B, w[8]) of the command latched in s (R112). -/
def latencyOf (l : Config.Latency) (s : State) : Nat :=
  l.cycles (s.cmdl.extractLsb' 0 8) s.lenA.toNat s.lenB.toNat (s.cmdl.getLsbD 8)

/-- A bus access between two clock cycles; an acceptance starts the count. -/
def timedAccess (l : Config.Latency) (a : Access) (t : Timed) : Timed × BusResponse :=
  let (s', r) := busAccess a t.core
  ({ core := s', left := if !t.core.busy && s'.busy then latencyOf l s' else t.left }, r)

/-- One core clock cycle: the last one of the count completes the command (R312). -/
def timedClock (t : Timed) : Host.Outcome Timed Fault Refusal :=
  if t.core.busy then
    if t.left ≤ 1 then
      match engineTurn t.core with
      | .next s' => .next { core := s', left := 0 }
      | .fault r => .fault r
      | .refused r => .refused r
    else .next { t with left := t.left - 1 }
  else .next t

/-- The reset input asserted between two clock cycles (R300, R301): the count is abandoned with the command. -/
def timedReset (t : Timed) : Timed := { core := resetCore t.core, left := 0 }

/-- n core clock cycles with no access between them. -/
def timedClocks : Nat → Timed → Host.Outcome Timed Fault Refusal
  | 0, t => .next t
  | n + 1, t =>
    match timedClock t with
    | .next t' => timedClocks n t'
    | .fault r => .fault r
    | .refused r => .refused r

/-- What can happen to the timed machine between an acceptance and the completion: a host access, or a core clock cycle. -/
inductive TimedEvent where
  | access (a : Access)
  | clock
deriving DecidableEq, Repr

/-- The number of clock cycles among events. -/
def clockCount : List TimedEvent → Nat
  | [] => 0
  | .access _ :: rest => clockCount rest
  | .clock :: rest => clockCount rest + 1

/-- The timed machine after events, in order: accesses fall between clock cycles at any point (R84, R112). -/
def timedEvents (l : Config.Latency) : List TimedEvent → Timed → Host.Outcome Timed Fault Refusal
  | [], t => .next t
  | .access a :: rest, t => timedEvents l rest (timedAccess l a t).1
  | .clock :: rest, t =>
    match timedClock t with
    | .next t' => timedEvents l rest t'
    | .fault r => .fault r
    | .refused r => .refused r

/-- n(x) of R313. -/
def cmacBlockCount (x : Nat) : Nat := max 1 (ceil16 x)

/-- Block-cipher invocations of a command whose length checks pass (R313, "for information only"); no rule depends on
them. -/
def cipherCalls (i : Instr) (lenA lenB : Nat) : Nat :=
  match i with
  | .clear => 0
  | .aes => 1
  | .cmac => 1 + cmacBlockCount lenA
  | .s1 => 1 + cmacBlockCount lenA
  | .ccmEnc _ => 2 + 2 * ceil16 lenA
  | .ccmDec _ => 2 + 2 * ceil16 lenA
  | .k1 => (1 + cmacBlockCount lenA) + (1 + cmacBlockCount lenB)
  | .k2 => (1 + cmacBlockCount lenA) + (1 + cmacBlockCount (lenB + 1)) + 2 * (1 + cmacBlockCount (lenB + 17))
  | .k3 => (1 + cmacBlockCount lenA) + 2
  | .k4 => (1 + cmacBlockCount lenA) + 2
  | .obf => 1
  | .deobf => 1

/-- One LATENCY of the many R312 allows: a cycle more than the invocations of R313. It shows that the parameter can be met. -/
def callLatency : Config.Latency where
  cycles op lenA lenB m8 :=
    1 + match decode (0#23 ++ BitVec.ofBool m8 ++ op) with
      | .ok i => cipherCalls i lenA lenB
      | .error _ => 0
  atLeastOne _ _ _ _ := Nat.le_add_right 1 _

end Sys2Proof.Machine
end

