-- ==== Sys2Proof/Safety.lean ====
section
/-! DEFINITION. What statements are made of: the invariant every step keeps, what a successful and a failed completion leave
(spec/30_encoding.md R113, R114; spec/60_exceptions.md R270), the length errors of R264, the operands a command reads (R106),
and the safe accesses of a host. -/

namespace Sys2Proof.Machine

/-- Every input register and every byte of BUF_A and BUF_B is zero: what R114 leaves. -/
structure InputsZero (s : State) : Prop where
  lenA : s.lenA = 0
  lenB : s.lenB = 0
  ivindex : s.ivindex = 0
  key : s.key = Vector.replicate 16 0
  nonce : s.nonce = Vector.replicate 13 0
  prand : s.prand = Vector.replicate 7 0
  micIn : s.micIn = Vector.replicate 8 0
  bufA : ∀ i < 1024, Memory.get s.mem (0x400 + i) = 0
  bufB : ∀ i < 1024, Memory.get s.mem (0x800 + i) = 0

/-- Every output register and every byte of BUF_O is zero: what R111 leaves. -/
structure OutputsZero (s : State) : Prop where
  result0 : s.result0 = Vector.replicate 16 0
  result1 : s.result1 = Vector.replicate 16 0
  result2 : s.result2 = 0
  bufO : ∀ i < 1024, Memory.get s.mem (0xC00 + i) = 0

/-- The invariant of the machine: memory in its canonical form and inside the buffers; DONE and ERR never both 1, ERRCODE 0
without ERR and 1 to 3 with it (R33, R261); bit 7 of RESULT2 is 0 (R45); and while BUSY, DONE, ERR and every output are 0 and
LASTOP is the opcode of CMDL (R33, R51, R111). -/
structure State.Inv (s : State) : Prop where
  memWf : Memory.wf s.mem = true
  memRange : ∀ c ∈ s.mem, 0x400 ≤ c.1 ∧ c.1 < 0x1000
  notBoth : ¬(s.done = true ∧ s.err = true)
  noError : s.err = false → s.errcode = 0
  anError : s.err = true → s.errcode = 1 ∨ s.errcode = 2 ∨ s.errcode = 3
  nid : s.result2.msb = false
  busyStatus : s.phase = .busy → s.done = false ∧ s.err = false
  busyOutputs : s.phase = .busy → OutputsZero s
  busyLastop : s.phase = .busy → s.lastop = s.cmdl.extractLsb' 0 8

/-- What a successful completion with `Ok(r0, r1, r2, o)` leaves (R113, R114), the machine having been in s. -/
structure Succeeded (s t : State) (r0 r1 : Block) (r2 : Byte) (o : List Byte) : Prop where
  phase : t.phase = .idle
  result0 : t.result0 = r0
  result1 : t.result1 = r1
  result2 : t.result2 = r2
  bufO : ∀ i < o.length, Memory.get t.mem (0xC00 + i) = o.getD i 0
  bufORest : ∀ i, o.length ≤ i → Memory.get t.mem (0xC00 + i) = Memory.get s.mem (0xC00 + i)
  done : t.done = true
  err : t.err = false
  errcode : t.errcode = 0
  lastop : t.lastop = s.lastop
  intflag : t.intflag = s.intflag ||| 0b001
  inten : t.inten = s.inten
  scrubbed : InputsZero t

/-- What a failed completion with error code n leaves (R270, R114): the outputs as they were, ERR, ERRCODE and ERRIF. -/
structure Failed (s t : State) (n : BitVec 4) : Prop where
  phase : t.phase = .idle
  result0 : t.result0 = s.result0
  result1 : t.result1 = s.result1
  result2 : t.result2 = s.result2
  bufO : ∀ i, Memory.get t.mem (0xC00 + i) = Memory.get s.mem (0xC00 + i)
  done : t.done = false
  err : t.err = true
  errcode : t.errcode = n
  lastop : t.lastop = s.lastop
  intflag : t.intflag = s.intflag ||| 0b010
  inten : t.inten = s.inten
  scrubbed : InputsZero t

/-- When a command raises ERR_LENGTH: the table of R264. -/
def LengthFails (i : Instr) (s : State) : Prop :=
  match i with
  | .clear => False
  | .aes => s.lenA.toNat ≠ 16
  | .cmac | .s1 | .k3 | .k4 | .obf | .deobf => s.lenA.toNat = 0 ∨ 1024 < s.lenA.toNat
  | .ccmEnc _ | .ccmDec _ => 1024 < s.lenA.toNat
  | .k1 | .k2 => s.lenA.toNat = 0 ∨ 1024 < s.lenA.toNat ∨ s.lenB.toNat = 0 ∨ 1024 < s.lenB.toNat

/-- Whether a command writes BUF_O on success (R106). -/
def writesBufO : Instr → Bool
  | .ccmEnc _ | .ccmDec _ | .obf | .deobf => true
  | .clear | .aes | .cmac | .s1 | .k1 | .k2 | .k3 | .k4 => false

/-- Two states agree on operand A: on LEN_A and on `BUF_A[0..LEN_A)`, as far as the buffer reaches. -/
def SameA (s t : State) : Prop :=
  s.lenA = t.lenA ∧ ∀ i < min s.lenA.toNat 1024, Memory.get s.mem (0x400 + i) = Memory.get t.mem (0x400 + i)

/-- Two states agree on operand B: on LEN_B and on `BUF_B[0..LEN_B)`, as far as the buffer reaches. -/
def SameB (s t : State) : Prop :=
  s.lenB = t.lenB ∧ ∀ i < min s.lenB.toNat 1024, Memory.get s.mem (0x800 + i) = Memory.get t.mem (0x800 + i)

/-- Two states agree on what a command reads: the "reads" column of R106 with the lengths of its range columns. -/
def SameOperands (i : Instr) (s t : State) : Prop :=
  match i with
  | .clear => True
  | .aes | .cmac => s.key = t.key ∧ SameA s t
  | .s1 | .k3 | .k4 => SameA s t
  | .ccmEnc _ => s.key = t.key ∧ s.nonce = t.nonce ∧ SameA s t
  | .ccmDec m =>
    s.key = t.key ∧ s.nonce = t.nonce ∧ SameA s t ∧ s.micIn.toList.take m.bytes = t.micIn.toList.take m.bytes
  | .k1 => s.key = t.key ∧ SameA s t ∧ SameB s t
  | .k2 => SameA s t ∧ SameB s t
  | .obf | .deobf => s.key = t.key ∧ s.ivindex = t.ivindex ∧ s.prand = t.prand ∧ SameA s t

/-- Two states show a host the same outputs and the same STATUS.DONE, ERR and ERRCODE. -/
structure SameOutputs (s t : State) : Prop where
  result0 : s.result0 = t.result0
  result1 : s.result1 = t.result1
  result2 : s.result2 = t.result2
  bufO : ∀ i < 1024, Memory.get s.mem (0xC00 + i) = Memory.get t.mem (0xC00 + i)
  done : s.done = t.done
  err : s.err = t.err
  errcode : s.errcode = t.errcode

/-- An input-class offset: 0x014 to 0x04F and 0x400 to 0xBFF (R79). -/
abbrev InputOffset (off : Nat) : Prop := (0x014 ≤ off ∧ off ≤ 0x04F) ∨ (0x400 ≤ off ∧ off ≤ 0xBFF)

/-- An output-class offset: 0x050 to 0x073 and 0xC00 to 0xFFF (R79). -/
abbrev OutputOffset (off : Nat) : Prop := (0x050 ≤ off ∧ off ≤ 0x073) ∨ (0xC00 ≤ off ∧ off ≤ 0xFFF)

/-- An access of a host that keeps the rules: no BUS_ERROR (R266) and no overrun (R267, R305, R308). -/
def SafeAccess (a : Access) (s : State) : Prop :=
  a.wellFormed = true ∧ (s.phase = .busy → ∀ off n v, a = .write off n v → ¬InputOffset off ∧ off ≠ 4)

/-- The word w is the command i, and no other word with w's opcode is a command (R102, R104). -/
def OnlyWord (w : Word) (i : Instr) : Prop :=
  decode w = .ok i ∧ ∀ v, v.extractLsb' 0 8 = w.extractLsb' 0 8 → v ≠ w → ∃ e, decode v = .error e

/-- The words w4 and w8 are the commands i4 and i8, and no other word with their opcode is a command (R102, R104). -/
def OnlyWords (w4 w8 : Word) (i4 i8 : Instr) : Prop :=
  decode w4 = .ok i4 ∧ decode w8 = .ok i8 ∧
    ∀ v, v.extractLsb' 0 8 = w4.extractLsb' 0 8 → v ≠ w4 → v ≠ w8 → ∃ e, decode v = .error e

/-- The engine's turn comes next: the schedule says so, or it is empty while a command is in progress. -/
def EngineNext (s : State) : Prop := s.sched = [] ∨ s.sched.head? = some .engine

/-- The machine after n bus accesses, in order. -/
def accesses : List Access → State → State
  | [], s => s
  | a :: rest, s => accesses rest (busAccess a s).1

end Sys2Proof.Machine
end

