-- ==== Sys2Proof/Certificates/Slice0/Obligations.lean ====
section
/-! DEFINITION. The statements about the Mesh Security Core model. A statement about a state that no run reaches holds there too,
unless it takes a part of the invariant `State.Inv` as a premise. -/

open Sys2Proof Sys2Proof.Machine

/-! ### Encoding -/

/-- R103: a word decodes to a command exactly if it is legal. -/
def Obligations.DecodeAcceptsExactlyLegalWords : Prop :=
  ∀ w : Word, (∃ i, decode w = .ok i) ↔ legalWord w = true

/-- R100 to R102, R105: every word has at most one meaning, every command exactly one word: decode and encode are inverse, in
both directions, the MIC size at both its values. -/
def Obligations.DecodeAndEncodeAreInverse : Prop :=
  (∀ i : Instr, i.wellFormed = true → decode (encode i) = .ok i) ∧ ∀ (w : Word) (i : Instr), decode w = .ok i → encode i = w

/-- R102: the complete list of legal command words. -/
def Obligations.ListedWordsDecode : Prop :=
  decode 0x00000000 = .ok .clear ∧ decode 0x00000001 = .ok .aes ∧ decode 0x00000002 = .ok .cmac ∧
  decode 0x00000003 = .ok .s1 ∧ decode 0x00000004 = .ok (.ccmEnc .m4) ∧ decode 0x00000104 = .ok (.ccmEnc .m8) ∧
  decode 0x00000005 = .ok (.ccmDec .m4) ∧ decode 0x00000105 = .ok (.ccmDec .m8) ∧ decode 0x00000006 = .ok .k1 ∧
  decode 0x00000007 = .ok .k2 ∧ decode 0x00000008 = .ok .k3 ∧ decode 0x00000009 = .ok .k4 ∧
  decode 0x0000000A = .ok .obf ∧ decode 0x0000000B = .ok .deobf

/-! ### The step -/

/-- R112, with the model's schedule (notes/assumptions/1.md): when a command is latched and the engine's turn is next, the step
is `exec` of the decoded command, in the state whose schedule has moved on. -/
def Obligations.StepRunsTheLatchedCommand : Prop :=
  ∀ (s : State) (i : Instr), s.phase = .busy → decode s.cmdl = .ok i → EngineNext s →
    step s = exec i { s with sched := s.sched.tail }

/-- R112, R117: the engine's one step is enabled only in BUSY, and always ends there: IDLE again, one of DONE and ERR set. -/
def Obligations.EngineStepsOnlyWhileBusy : Prop :=
  ∀ s : State, (s.phase = .idle → engineTurn s = .next s) ∧
    (s.phase = .busy → ∃ t, engineTurn s = .next t ∧ t.phase = .idle ∧ t.done = !t.err)

/-- R103, R104, R263: an illegal word that was accepted ends with ERR_OPCODE, whatever the operands. -/
def Obligations.IllegalWordEndsInOpcodeError : Prop :=
  ∀ s : State, s.phase = .busy → legalWord s.cmdl = false → ∃ t, engineTurn s = .next t ∧ Failed s t 3

/-- No access blocks and no command is stuck: every step of every state answers a next state, a BUS_ERROR being the host's own
fault in its response (R266; notes/assumptions/5.md). -/
def Obligations.StepAlwaysAnswersNext : Prop :=
  ∀ s : State, ∃ t, step s = .next t

/-- R112's fairness under the model's schedule (notes/assumptions/1.md): from every state with a command in progress, the machine
is IDLE again after at most one step more than there are turns scheduled. -/
def Obligations.AcceptedCommandCompletes : Prop :=
  ∀ s : State, s.phase = .busy →
    ∃ k t, k ≤ s.sched.length + 1 ∧ Host.Core.run Sys2Proof.core k s = .next t ∧ Sys2Proof.Machine.State.phase t = .idle

/-- The invariant holds at reset. -/
def Obligations.ResetMeetsInvariant : Prop := State.Inv State.reset

/-- Every step keeps the invariant: canonical memory inside the buffers, STATUS never DONE and ERR at once, ERRCODE as R261,
the NID bit 7 clear, and outputs and STATUS zero while BUSY. -/
def Obligations.StepKeepsInvariant : Prop :=
  ∀ s t : State, s.Inv → step s = .next t → t.Inv

/-! ### Reset -/

/-- R300: every value the spec gives for reset. -/
def Obligations.ResetValues : Prop :=
  State.reset.phase = .idle ∧ State.reset.statusWord = 0 ∧ State.reset.intenWord = 0 ∧ State.reset.intflagWord = 0 ∧
  InputsZero State.reset ∧ OutputsZero State.reset ∧ State.reset.irq = false ∧
  (busAccess (.read 0x000 4) State.reset).2 = .data 0x4D534301

/-- R301: reset in any state, a command in progress included, leaves the machine IDLE with STATUS, INTEN, INTFLAG, every input and
every output zero: the command never completes. -/
def Obligations.ResetAbortsTheCommand : Prop :=
  ∀ s : State, ∃ t, takeTurn .reset s = .next t ∧ t.phase = .idle ∧ t.statusWord = 0 ∧ t.intenWord = 0 ∧ t.intflagWord = 0 ∧
    InputsZero t ∧ OutputsZero t ∧ engineTurn t = .next t

/-! ### Command acceptance -/

/-- R110, R111: a 32-bit CMD write while IDLE latches the word, sets BUSY, clears STATUS and every output, sets LASTOP, and
changes no input, INTEN or INTFLAG bit. -/
def Obligations.CommandAcceptance : Prop :=
  ∀ (s : State) (w : Word), s.phase = .idle → ∃ t, busAccess (.write 0x004 4 w) s = (t, .written) ∧
    t.cmdl = w ∧ t.phase = .busy ∧ t.busy = true ∧ t.done = false ∧ t.err = false ∧ t.errcode = 0 ∧ t.lastop = w.extractLsb' 0 8 ∧
    OutputsZero t ∧ t.lenA = s.lenA ∧ t.lenB = s.lenB ∧ t.ivindex = s.ivindex ∧ t.key = s.key ∧ t.nonce = s.nonce ∧
    t.prand = s.prand ∧ t.micIn = s.micIn ∧ t.inten = s.inten ∧ t.intflag = s.intflag ∧
    ∀ i < 1024, Memory.get t.mem (0x400 + i) = Memory.get s.mem (0x400 + i) ∧
      Memory.get t.mem (0x800 + i) = Memory.get s.mem (0x800 + i)

/-- R116: a 32-bit CMD write while BUSY sets OVRIF and changes nothing else. -/
def Obligations.CommandOverrunIsDropped : Prop :=
  ∀ (s : State) (w : Word), s.phase = .busy →
    busAccess (.write 0x004 4 w) s = ({ s with intflag := s.intflag ||| 0b100 }, .written)

/-- R77: a CMD write of 1 or 2 bytes is refused, and a legal read of CMD returns 0. -/
def Obligations.CmdTakesOnlyWordWrites : Prop :=
  (∀ (s : State) (off n : Nat) (v : Word), (n = 1 ∨ n = 2) → 0x004 ≤ off → off ≤ 0x007 →
    busAccess (.write off n v) s = (s, .fault .busError)) ∧
  ∀ (s : State) (off n : Nat), (Access.read off n).wellFormed = true → 0x004 ≤ off → off ≤ 0x007 →
    busAccess (.read off n) s = (s, .data 0)

/-! ### Bus accesses -/

/-- R72: an access of a width other than 1, 2 or 4, or misaligned, or past the end of the register space, gets BUS_ERROR and changes
nothing; every other access is served, but for the narrow CMD write of R77. -/
def Obligations.BusErrorExactlyOnForbiddenAccess : Prop :=
  ∀ (a : Access) (s : State),
    ((a.width ≠ 1 ∧ a.width ≠ 2 ∧ a.width ≠ 4) ∨ a.offset % a.width ≠ 0 ∨ 0x1000 < a.offset + a.width →
      busAccess a s = (s, .fault .busError)) ∧
    ((a.width = 1 ∨ a.width = 2 ∨ a.width = 4) → a.offset % a.width = 0 → a.offset + a.width ≤ 0x1000 →
      a.narrowCmdWrite = false → (busAccess a s).2 ≠ .fault .busError)

/-- R83: no read has a side effect. -/
def Obligations.ReadsChangeNothing : Prop :=
  ∀ (s : State) (off n : Nat), (busAccess (.read off n) s).1 = s

/-- R73: a legal 2- or 4-byte write that issues no command is its one-byte writes, lane 0 first, and byte i of a legal read is
what a one-byte read at off + i returns. -/
def Obligations.WordAccessIsItsByteAccesses : Prop :=
  (∀ (s : State) (off : Nat) (v : Word), (Access.write off 2 v).wellFormed = true →
    (busAccess (.write off 2 v) s).1 =
      accesses [.write off 1 (v.extractLsb' 0 8 |>.setWidth 32), .write (off + 1) 1 (v.extractLsb' 8 8 |>.setWidth 32)] s) ∧
  (∀ (s : State) (off : Nat) (v : Word), (Access.write off 4 v).wellFormed = true → off ≠ 0x004 →
    (busAccess (.write off 4 v) s).1 =
      accesses [.write off 1 (v.extractLsb' 0 8 |>.setWidth 32), .write (off + 1) 1 (v.extractLsb' 8 8 |>.setWidth 32),
        .write (off + 2) 1 (v.extractLsb' 16 8 |>.setWidth 32), .write (off + 3) 1 (v.extractLsb' 24 8 |>.setWidth 32)] s) ∧
  ∀ (s : State) (off n : Nat), (Access.read off n).wellFormed = true → ∃ w, (busAccess (.read off n) s).2 = .data w ∧
    (∀ i < n, (busAccess (.read (off + i) 1) s).2 = .data ((w.extractLsb' (8 * i) 8).setWidth 32)) ∧
    ∀ i < 4, n ≤ i → w.extractLsb' (8 * i) 8 = 0

/-- R71, R79: every offset belongs to exactly one row of the address map, and the row's class is the one R79 gives. -/
def Obligations.AddressMapIsAPartition : Prop :=
  ∀ off < 0x1000, ∃ r ∈ addressMap, (r.first ≤ off ∧ off ≤ r.last) ∧
    (∀ q ∈ addressMap, q.first ≤ off ∧ off ≤ q.last → q = r) ∧
    (r.cls = .control ↔ off ≤ 0x013 ∨ (0x074 ≤ off ∧ off ≤ 0x3FF)) ∧
    (r.cls = .input ↔ InputOffset off) ∧ (r.cls = .output ↔ OutputOffset off)

/-- R80: while BUSY, a legal write to an input-class offset stores nothing and sets OVRIF, and a legal read of one returns what it
would return while IDLE. -/
def Obligations.InputsHeldWhileBusy : Prop :=
  ∀ (s : State) (off n : Nat) (v : Word), s.phase = .busy → InputOffset off →
    ((Access.write off n v).wellFormed = true →
      busAccess (.write off n v) s = ({ s with intflag := s.intflag ||| 0b100 }, .written)) ∧
    ((Access.read off n).wellFormed = true →
      (busAccess (.read off n) s).2 = (busAccess (.read off n) { s with phase := .idle }).2)

/-- R81: while BUSY a legal read of an output-class offset returns 0, and a legal write to one is ignored in every phase. -/
def Obligations.OutputsHiddenWhileBusy : Prop :=
  ∀ (s : State) (off n : Nat) (v : Word), OutputOffset off →
    ((Access.read off n).wellFormed = true → s.phase = .busy → busAccess (.read off n) s = (s, .data 0)) ∧
    ((Access.write off n v).wellFormed = true → busAccess (.write off n v) s = (s, .written))

/-- R39: a legal read of the KEY offsets returns 0 in every phase. -/
def Obligations.KeyReadsZero : Prop :=
  ∀ (s : State) (off n : Nat), (Access.read off n).wellFormed = true → 0x020 ≤ off → off ≤ 0x02F →
    busAccess (.read off n) s = (s, .data 0)

/-- R39, R279: what any access returns does not depend on KEY. -/
def Obligations.ResponsesDoNotDependOnKey : Prop :=
  ∀ (s : State) (k : Vector Byte 16) (a : Access), (busAccess a { s with key := k }).2 = (busAccess a s).2

/-- R76: reserved control offsets read 0 and ignore writes, in every phase; reserved input bytes read 0 and, while IDLE, ignore
writes; reserved output bytes read 0. -/
def Obligations.ReservedReadZeroIgnoreWrites : Prop :=
  (∀ (s : State) (off n : Nat) (v : Word), 0x074 ≤ off → off ≤ 0x3FF →
    ((Access.read off n).wellFormed = true → busAccess (.read off n) s = (s, .data 0)) ∧
    ((Access.write off n v).wellFormed = true → busAccess (.write off n v) s = (s, .written))) ∧
  (∀ (s : State) (off : Nat) (v : Word), (0x03D ≤ off ∧ off ≤ 0x03F) ∨ off = 0x047 →
    busAccess (.read off 1) s = (s, .data 0) ∧ (s.phase = .idle → busAccess (.write off 1 v) s = (s, .written))) ∧
  ∀ (s : State) (off : Nat), 0x071 ≤ off → off ≤ 0x073 → busAccess (.read off 1) s = (s, .data 0)

/-! ### Control registers -/

/-- R31, R33, R78: ID reads 0x4D534301 and STATUS its fields, reserved bits 0; legal writes of every width to both are ignored, in
every phase. -/
def Obligations.IdAndStatusWords : Prop :=
  ∀ s : State, (busAccess (.read 0x000 4) s).2 = .data 0x4D534301 ∧
    (∀ off n v, (Access.write off n v).wellFormed = true → off ≤ 0x003 ∨ (0x008 ≤ off ∧ off ≤ 0x00B) →
      busAccess (.write off n v) s = (s, .written)) ∧
    ∃ w, (busAccess (.read 0x008 4) s).2 = .data w ∧ (w.getLsbD 0 = true ↔ s.phase = .busy) ∧ w.getLsbD 1 = s.done ∧
      w.getLsbD 2 = s.err ∧ w.getLsbD 3 = false ∧ w.extractLsb' 4 4 = s.errcode ∧ w.extractLsb' 8 8 = 0 ∧
      w.extractLsb' 16 8 = s.lastop ∧ w.extractLsb' 24 8 = 0

/-- R34, R75: INTEN takes bits [2:0] of any legal write to its first byte, in every phase; its other bytes hold nothing; it reads
back zero-extended. -/
def Obligations.IntenWrites : Prop :=
  ∀ (s : State) (n : Nat) (v : Word), (n = 1 ∨ n = 2 ∨ n = 4) →
    busAccess (.write 0x00C n v) s = ({ s with inten := v.setWidth 3 }, .written) ∧
    (∀ off, 0x00C < off → off ≤ 0x00F → (Access.write off n v).wellFormed = true →
      busAccess (.write off n v) s = (s, .written)) ∧
    busAccess (.read 0x00C 4) s = (s, .data (s.inten.setWidth 32))

/-- R35, R75: a legal write to INTFLAG's first byte clears the flags whose bit in the data is 1 and no other, in every phase; its other
bytes do nothing; it reads back zero-extended. -/
def Obligations.IntflagWriteOneToClear : Prop :=
  ∀ (s : State) (n : Nat) (v : Word), (n = 1 ∨ n = 2 ∨ n = 4) →
    (∃ f, busAccess (.write 0x010 n v) s = ({ s with intflag := f }, .written) ∧
      ∀ b < 3, f.getLsbD b = (s.intflag.getLsbD b && !v.getLsbD b)) ∧
    (∀ off, 0x010 < off → off ≤ 0x013 → (Access.write off n v).wellFormed = true →
      busAccess (.write off n v) s = (s, .written)) ∧
    busAccess (.read 0x010 4) s = (s, .data (s.intflag.setWidth 32))

/-- R53: IRQ is asserted exactly when some flag is set whose enable is set; it depends on INTEN and INTFLAG alone. -/
def Obligations.IrqIsAnEnabledFlag : Prop :=
  (∀ s : State, s.irq = true ↔ ∃ b < 3, s.inten.getLsbD b = true ∧ s.intflag.getLsbD b = true) ∧
  ∀ s t : State, s.inten = t.inten → s.intflag = t.intflag → s.irq = t.irq

/-! ### Operand and output registers -/

/-- R36, R37, R38: while IDLE a 32-bit write to LEN_A or LEN_B stores bits [15:0], one to IVINDEX all 32, and each reads back. -/
def Obligations.LengthAndIvRegisters : Prop :=
  ∀ (s : State) (v : Word), s.phase = .idle →
    busAccess (.write 0x014 4 v) s = ({ s with lenA := v.setWidth 16 }, .written) ∧
    busAccess (.write 0x018 4 v) s = ({ s with lenB := v.setWidth 16 }, .written) ∧
    busAccess (.write 0x01C 4 v) s = ({ s with ivindex := v }, .written) ∧
    busAccess (.read 0x014 4) s = (s, .data (s.lenA.setWidth 32)) ∧
    busAccess (.read 0x018 4) s = (s, .data (s.lenB.setWidth 32)) ∧
    busAccess (.read 0x01C 4) s = (s, .data s.ivindex)

/-- R75: a 1- or 2-byte write while IDLE changes only the addressed bytes of LEN_A, LEN_B and IVINDEX; the reserved halves of the
lengths take nothing. -/
def Obligations.NarrowLengthWrites : Prop :=
  ∀ (s : State) (v : Word), s.phase = .idle →
    busAccess (.write 0x014 1 v) s = ({ s with lenA := s.lenA.extractLsb' 8 8 ++ v.extractLsb' 0 8 }, .written) ∧
    busAccess (.write 0x015 1 v) s = ({ s with lenA := v.extractLsb' 0 8 ++ s.lenA.extractLsb' 0 8 }, .written) ∧
    busAccess (.write 0x016 1 v) s = (s, .written) ∧ busAccess (.write 0x017 1 v) s = (s, .written) ∧
    busAccess (.write 0x014 2 v) s = ({ s with lenA := v.extractLsb' 0 16 }, .written) ∧
    busAccess (.write 0x016 2 v) s = (s, .written) ∧
    busAccess (.write 0x018 1 v) s = ({ s with lenB := s.lenB.extractLsb' 8 8 ++ v.extractLsb' 0 8 }, .written) ∧
    busAccess (.write 0x019 1 v) s = ({ s with lenB := v.extractLsb' 0 8 ++ s.lenB.extractLsb' 0 8 }, .written) ∧
    busAccess (.write 0x01A 1 v) s = (s, .written) ∧ busAccess (.write 0x01B 1 v) s = (s, .written) ∧
    busAccess (.write 0x018 2 v) s = ({ s with lenB := v.extractLsb' 0 16 }, .written) ∧
    busAccess (.write 0x01A 2 v) s = (s, .written) ∧
    busAccess (.write 0x01C 1 v) s = ({ s with ivindex := s.ivindex.extractLsb' 8 24 ++ v.extractLsb' 0 8 }, .written) ∧
    busAccess (.write 0x01D 1 v) s =
      ({ s with ivindex := s.ivindex.extractLsb' 16 16 ++ v.extractLsb' 0 8 ++ s.ivindex.extractLsb' 0 8 }, .written) ∧
    busAccess (.write 0x01E 1 v) s =
      ({ s with ivindex := s.ivindex.extractLsb' 24 8 ++ v.extractLsb' 0 8 ++ s.ivindex.extractLsb' 0 16 }, .written) ∧
    busAccess (.write 0x01F 1 v) s = ({ s with ivindex := v.extractLsb' 0 8 ++ s.ivindex.extractLsb' 0 24 }, .written) ∧
    busAccess (.write 0x01C 2 v) s = ({ s with ivindex := s.ivindex.extractLsb' 16 16 ++ v.extractLsb' 0 16 }, .written) ∧
    busAccess (.write 0x01E 2 v) s = ({ s with ivindex := v.extractLsb' 0 16 ++ s.ivindex.extractLsb' 0 16 }, .written)

/-- R39 to R42, R74: while IDLE a 1-byte write stores element i of KEY, NONCE, PRAND or MIC_IN and nothing else, and a 1-byte read of
the last three returns element i in every phase. -/
def Obligations.ByteStringRegisters : Prop :=
  (∀ (s : State) (i : Nat) (v : Word), s.phase = .idle →
    (i < 16 → busAccess (.write (0x020 + i) 1 v) s = ({ s with key := s.key.setIfInBounds i (v.extractLsb' 0 8) }, .written)) ∧
    (i < 13 →
      busAccess (.write (0x030 + i) 1 v) s = ({ s with nonce := s.nonce.setIfInBounds i (v.extractLsb' 0 8) }, .written)) ∧
    (i < 7 →
      busAccess (.write (0x040 + i) 1 v) s = ({ s with prand := s.prand.setIfInBounds i (v.extractLsb' 0 8) }, .written)) ∧
    (i < 8 →
      busAccess (.write (0x048 + i) 1 v) s = ({ s with micIn := s.micIn.setIfInBounds i (v.extractLsb' 0 8) }, .written))) ∧
  ∀ (s : State) (i : Nat),
    (∀ h : i < 13, busAccess (.read (0x030 + i) 1) s = (s, .data (s.nonce[i].setWidth 32))) ∧
    (∀ h : i < 7, busAccess (.read (0x040 + i) 1) s = (s, .data (s.prand[i].setWidth 32))) ∧
    ∀ h : i < 8, busAccess (.read (0x048 + i) 1) s = (s, .data (s.micIn[i].setWidth 32))

/-- R46, R47: while IDLE a 1-byte write to BUF_A or BUF_B stores that byte and changes no other byte and no register; a 1-byte read
returns it. -/
def Obligations.BufferBytes : Prop :=
  ∀ (s : State) (a : Nat) (v : Word), Memory.wf s.mem = true → s.phase = .idle → 0x400 ≤ a → a < 0xC00 →
    ∃ m, busAccess (.write a 1 v) s = ({ s with mem := m }, .written) ∧ Memory.get m a = v.extractLsb' 0 8 ∧
      (∀ b, b ≠ a → Memory.get m b = Memory.get s.mem b) ∧ Memory.wf m = true ∧
      busAccess (.read a 1) s = (s, .data ((Memory.get s.mem a).setWidth 32))

/-- R43, R44, R45, R48, R74: while IDLE a 1-byte read of RESULT0, RESULT1, RESULT2 or BUF_O returns its element. -/
def Obligations.OutputBytesReadWhileIdle : Prop :=
  ∀ (s : State) (i : Nat), s.phase = .idle →
    (∀ h : i < 16, busAccess (.read (0x050 + i) 1) s = (s, .data (s.result0[i].setWidth 32)) ∧
      busAccess (.read (0x060 + i) 1) s = (s, .data (s.result1[i].setWidth 32))) ∧
    busAccess (.read 0x070 1) s = (s, .data (s.result2.setWidth 32)) ∧
    (i < 1024 → busAccess (.read (0xC00 + i) 1) s = (s, .data ((Memory.get s.mem (0xC00 + i)).setWidth 32)))

/-- R43 to R45, R48, R50, R86: no access other than an accepted command changes an output, STATUS or the phase. -/
def Obligations.OutputsStableUntilNextCommand : Prop :=
  ∀ (s : State) (a : Access), (∀ w, a = .write 0x004 4 w → s.phase = .busy) →
    (busAccess a s).1.result0 = s.result0 ∧ (busAccess a s).1.result1 = s.result1 ∧ (busAccess a s).1.result2 = s.result2 ∧
    (∀ i, Memory.get (busAccess a s).1.mem (0xC00 + i) = Memory.get s.mem (0xC00 + i)) ∧
    (busAccess a s).1.statusWord = s.statusWord ∧ (busAccess a s).1.phase = s.phase

/-! ### The commands

They are stated of `exec`, which completes a command from any phase: the model's choice, notes/assumptions/12.md. -/

/-- R130: CLEAR is word 0 and always succeeds, with zero RESULT registers and nothing written to BUF_O, so that outputs that
acceptance has zeroed (R111) stay zero; and a CLEAR accepted in any IDLE state and completed leaves every output and every input
zero and STATUS = 0x00000002. That `exec` completes CLEAR from any phase is the model's choice (notes/assumptions/12.md). -/
def Obligations.ClearWipesOutputs : Prop :=
  OnlyWord 0x00000000 .clear ∧
  (∀ s : State, ∃ t, exec .clear s = .next t ∧ Succeeded s t zeroBlock zeroBlock 0 [] ∧ (OutputsZero s → OutputsZero t)) ∧
  ∀ s : State, s.phase = .idle → ∃ t, engineTurn (busAccess (.write 0x004 4 0x00000000) s).1 = .next t ∧
    OutputsZero t ∧ InputsZero t ∧ t.phase = .idle ∧ t.statusWord = 0x00000002

/-- R142: AES encrypts BUF_A[0..16) under KEY when LEN_A = 16 and raises ERR_LENGTH otherwise. -/
def Obligations.AesEncryptsOneBlock : Prop :=
  OnlyWord 0x00000001 .aes ∧
  (∀ s : State, s.lenA.toNat = 16 → ∃ t x, exec .aes s = .next t ∧
    (∀ i < 16, blockAt x i = Memory.get s.mem (0x400 + i)) ∧ Succeeded s t (encryptBlock s.key x) zeroBlock 0 []) ∧
  ∀ s : State, s.lenA.toNat ≠ 16 → ∃ t, exec .aes s = .next t ∧ Failed s t 1

/-- R175: CMAC of BUF_A[0..LEN_A) under KEY for LEN_A in 1..1024, ERR_LENGTH otherwise. -/
def Obligations.CmacTagsTheMessage : Prop :=
  OnlyWord 0x00000002 .cmac ∧
  (∀ s : State, 1 ≤ s.lenA.toNat → s.lenA.toNat ≤ 1024 → ∃ t, exec .cmac s = .next t ∧
    Succeeded s t (cmac s.key s.operandA) zeroBlock 0 []) ∧
  ∀ s : State, s.lenA.toNat = 0 ∨ 1024 < s.lenA.toNat → ∃ t, exec .cmac s = .next t ∧ Failed s t 1

/-- R176, R174: S1 is the CMAC of BUF_A[0..LEN_A) under the zero key, KEY ignored, for LEN_A in 1..1024. -/
def Obligations.SaltIsCmacUnderZeroKey : Prop :=
  OnlyWord 0x00000003 .s1 ∧
  (∀ s : State, 1 ≤ s.lenA.toNat → s.lenA.toNat ≤ 1024 → ∃ t, exec .s1 s = .next t ∧
    Succeeded s t (cmac zeroBlock s.operandA) zeroBlock 0 []) ∧
  ∀ s : State, s.lenA.toNat = 0 ∨ 1024 < s.lenA.toNat → ∃ t, exec .s1 s = .next t ∧ Failed s t 1

/-- R197 with R194 and R195: for LEN_A up to 1024, byte i of BUF_O is BUF_A[i] XOR S_(i/16 + 1)[i mod 16], RESULT0[0..M) is T XOR S_0
and RESULT0[M..16) is zero; ERR_LENGTH above 1024. -/
def Obligations.CcmEncEncryptsAndTags : Prop :=
  OnlyWords 0x00000004 0x00000104 (.ccmEnc .m4) (.ccmEnc .m8) ∧
  (∀ (m : MicSize) (s : State), Memory.wf s.mem = true → s.lenA.toNat ≤ 1024 → ∃ t r0 c, exec (.ccmEnc m) s = .next t ∧
    Succeeded s t r0 zeroBlock 0 c ∧ c.length = s.lenA.toNat ∧
    (∀ i < s.lenA.toNat, c.getD i 0 =
      Memory.get s.mem (0x400 + i) ^^^ blockAt (encryptBlock s.key (ccmCounter s.nonce (i / 16 + 1))) (i % 16)) ∧
    (∀ i < m.bytes, blockAt r0 i = blockAt (cbcmac s.key s.nonce m.bytes s.operandA) i ^^^
      blockAt (encryptBlock s.key (ccmCounter s.nonce 0)) i) ∧
    ∀ i < 16, m.bytes ≤ i → blockAt r0 i = 0) ∧
  ∀ (m : MicSize) (s : State), 1024 < s.lenA.toNat → ∃ t, exec (.ccmEnc m) s = .next t ∧ Failed s t 1

/-- R198: for LEN_A up to 1024, CCM_DEC writes the plaintext `ctr(KEY, NONCE, BUF_A[0..LEN_A))` to BUF_O when the MIC over it equals
MIC_IN[0..M), and otherwise fails with ERR_AUTH, writing no output; ERR_LENGTH above 1024. -/
def Obligations.CcmDecDecryptsOrFails : Prop :=
  OnlyWords 0x00000005 0x00000105 (.ccmDec .m4) (.ccmDec .m8) ∧
  (∀ (m : MicSize) (s : State), Memory.wf s.mem = true → s.lenA.toNat ≤ 1024 →
    ccmMic s.key s.nonce m.bytes (ctr s.key s.nonce s.operandA) = s.micIn.toList.take m.bytes →
    ∃ t, exec (.ccmDec m) s = .next t ∧ Succeeded s t zeroBlock zeroBlock 0 (ctr s.key s.nonce s.operandA)) ∧
  (∀ (m : MicSize) (s : State), s.lenA.toNat ≤ 1024 →
    ccmMic s.key s.nonce m.bytes (ctr s.key s.nonce s.operandA) ≠ s.micIn.toList.take m.bytes →
    ∃ t, exec (.ccmDec m) s = .next t ∧ Failed s t 2) ∧
  ∀ (m : MicSize) (s : State), 1024 < s.lenA.toNat → ∃ t, exec (.ccmDec m) s = .next t ∧ Failed s t 1

/-- R225, R220: K1 is the CMAC of P under the CMAC of N under the salt, for both lengths in 1..1024. -/
def Obligations.K1DerivesKey : Prop :=
  OnlyWord 0x00000006 .k1 ∧
  (∀ s : State, 1 ≤ s.lenA.toNat → s.lenA.toNat ≤ 1024 → 1 ≤ s.lenB.toNat → s.lenB.toNat ≤ 1024 →
    ∃ t, exec .k1 s = .next t ∧ Succeeded s t (cmac (cmac s.key s.operandA) s.operandB) zeroBlock 0 []) ∧
  ∀ s : State, s.lenA.toNat = 0 ∨ 1024 < s.lenA.toNat ∨ s.lenB.toNat = 0 ∨ 1024 < s.lenB.toNat →
    ∃ t, exec .k1 s = .next t ∧ Failed s t 1

/-- R226, R221 (90_conflicts.md C1): K2 gives T2, T3 and the low 7 bits of T1 in RESULT0, RESULT1 and RESULT2. -/
def Obligations.K2DerivesCredentials : Prop :=
  OnlyWord 0x00000007 .k2 ∧
  (∀ s : State, 1 ≤ s.lenA.toNat → s.lenA.toNat ≤ 1024 → 1 ≤ s.lenB.toNat → s.lenB.toNat ≤ 1024 →
    ∃ t k t1 t2 t3, exec .k2 s = .next t ∧ k = cmac (cmac zeroBlock [0x73, 0x6D, 0x6B, 0x32]) s.operandA ∧
      t1 = cmac k (s.operandB ++ [0x01]) ∧ t2 = cmac k (t1.toList ++ s.operandB ++ [0x02]) ∧
      t3 = cmac k (t2.toList ++ s.operandB ++ [0x03]) ∧ Succeeded s t t2 t3 (blockAt t1 15 &&& 0x7F) [] ∧
      t.result2.msb = false) ∧
  ∀ s : State, s.lenA.toNat = 0 ∨ 1024 < s.lenA.toNat ∨ s.lenB.toNat = 0 ∨ 1024 < s.lenB.toNat →
    ∃ t, exec .k2 s = .next t ∧ Failed s t 1

/-- R227, R222: K3 gives the low 64 bits of the final CMAC in RESULT0[0..8), zeros after. -/
def Obligations.K3DerivesNetworkId : Prop :=
  OnlyWord 0x00000008 .k3 ∧
  (∀ s : State, 1 ≤ s.lenA.toNat → s.lenA.toNat ≤ 1024 → ∃ t c r0, exec .k3 s = .next t ∧
    c = cmac (cmac (cmac zeroBlock [0x73, 0x6D, 0x6B, 0x33]) s.operandA) [0x69, 0x64, 0x36, 0x34, 0x01] ∧
    Succeeded s t r0 zeroBlock 0 [] ∧ (∀ i < 8, blockAt r0 i = blockAt c (8 + i)) ∧ ∀ i < 8, blockAt r0 (8 + i) = 0) ∧
  ∀ s : State, s.lenA.toNat = 0 ∨ 1024 < s.lenA.toNat → ∃ t, exec .k3 s = .next t ∧ Failed s t 1

/-- R228, R223: K4 gives the low 6 bits of the final CMAC in RESULT0[0], zeros after. -/
def Obligations.K4DerivesApplicationId : Prop :=
  OnlyWord 0x00000009 .k4 ∧
  (∀ s : State, 1 ≤ s.lenA.toNat → s.lenA.toNat ≤ 1024 → ∃ t c r0, exec .k4 s = .next t ∧
    c = cmac (cmac (cmac zeroBlock [0x73, 0x6D, 0x6B, 0x34]) s.operandA) [0x69, 0x64, 0x36, 0x01] ∧
    Succeeded s t r0 zeroBlock 0 [] ∧ blockAt r0 0 = (blockAt c 15 &&& 0x3F) ∧ (blockAt r0 0).toNat < 64 ∧
    ∀ i < 16, 1 ≤ i → blockAt r0 i = 0) ∧
  ∀ s : State, s.lenA.toNat = 0 ∨ 1024 < s.lenA.toNat → ∃ t, exec .k4 s = .next t ∧ Failed s t 1

/-- R244, R242: OBF XORs the first 6 bytes of BUF_A[0..LEN_A), as far as they are there, with PECB and copies the rest to BUF_O. -/
def Obligations.ObfMasksTheHeader : Prop :=
  OnlyWord 0x0000000A .obf ∧
  (∀ s : State, Memory.wf s.mem = true → 1 ≤ s.lenA.toNat → s.lenA.toNat ≤ 1024 → ∃ t o, exec .obf s = .next t ∧
    Succeeded s t zeroBlock zeroBlock 0 o ∧ o.length = s.lenA.toNat ∧
    ∀ i < s.lenA.toNat, o.getD i 0 = if i < 6 then
      Memory.get s.mem (0x400 + i) ^^^ blockAt (encryptBlock s.key (privacyPlaintext s.ivindex s.prand)) i
      else Memory.get s.mem (0x400 + i)) ∧
  ∀ s : State, s.lenA.toNat = 0 ∨ 1024 < s.lenA.toNat → ∃ t, exec .obf s = .next t ∧ Failed s t 1

/-- R245, R242: DEOBF is word 0x0B and has OBF's effect. -/
def Obligations.DeobfMasksTheHeader : Prop :=
  OnlyWord 0x0000000B .deobf ∧
  (∀ s : State, Memory.wf s.mem = true → 1 ≤ s.lenA.toNat → s.lenA.toNat ≤ 1024 → ∃ t o, exec .deobf s = .next t ∧
    exec .obf s = .next t ∧ Succeeded s t zeroBlock zeroBlock 0 o ∧ o.length = s.lenA.toNat ∧
    ∀ i < s.lenA.toNat, o.getD i 0 = if i < 6 then
      Memory.get s.mem (0x400 + i) ^^^ blockAt (encryptBlock s.key (privacyPlaintext s.ivindex s.prand)) i
      else Memory.get s.mem (0x400 + i)) ∧
  ∀ s : State, s.lenA.toNat = 0 ∨ 1024 < s.lenA.toNat → ∃ t, exec .deobf s = .next t ∧ Failed s t 1

/-! ### All commands -/

/-- R264: the table of length errors. -/
def Obligations.LengthErrors : Prop :=
  ∀ (i : Instr) (s : State), (LengthFails i s → ∃ t, exec i s = .next t ∧ Failed s t 1) ∧
    (¬LengthFails i s → ∀ t, exec i s = .next t → t.errcode ≠ 1)

/-- R265: ERR_AUTH is raised by CCM_DEC only, after its length passes, exactly when the expected MIC differs from MIC_IN[0..M),
and is fatal to that command. -/
def Obligations.AuthErrorOnlyOnMicMismatch : Prop :=
  ∀ (i : Instr) (s t : State), exec i s = .next t →
    (t.errcode = 2 ↔ ∃ m, i = .ccmDec m ∧ s.lenA.toNat ≤ 1024 ∧
      ccmMic s.key s.nonce m.bytes (ctr s.key s.nonce s.operandA) ≠ s.micIn.toList.take m.bytes) ∧
    (t.errcode = 2 → Failed s t 2)

/-- R48, R198, R265: a failed CCM_DEC leaves every output zero, whatever the ciphertext: no byte of the plaintext is readable. The
premise that the outputs are zero in s is R111's, part of `State.Inv` while BUSY. -/
def Obligations.FailedDecryptionRevealsNothing : Prop :=
  ∀ (m : MicSize) (s t : State), OutputsZero s → exec (.ccmDec m) s = .next t → t.err = true → OutputsZero t

/-- R114: every completion, of a legal or an illegal word, scrubs every input. -/
def Obligations.EveryCompletionScrubsInputs : Prop :=
  ∀ s : State, s.phase = .busy → ∃ t, engineTurn s = .next t ∧ InputsZero t

/-- The frame of every command (R30, R70, R90, R106, R113, R114, R270): INTEN and LASTOP are unchanged; INTFLAG gains only DONEIF or ERRIF;
every byte outside BUF_A, BUF_B and the bytes written to BUF_O (LEN_A bytes for the four commands that write it) is unchanged. CMDL,
the hosts and the schedule are unchanged too, which is the model's choice (notes/assumptions/2.md and 4.md). -/
def Obligations.CommandFrame : Prop :=
  ∀ (i : Instr) (s t : State), exec i s = .next t →
    t.inten = s.inten ∧ t.lastop = s.lastop ∧ t.cmdl = s.cmdl ∧ t.hosts = s.hosts ∧ t.sched = s.sched ∧
    (t.intflag = s.intflag ||| 0b001 ∨ t.intflag = s.intflag ||| 0b010) ∧
    ∀ a, a < 0x400 ∨ 0xC00 + (if writesBufO i then s.lenA.toNat else 0) ≤ a → Memory.get t.mem a = Memory.get s.mem a

/-- R106, R118: the outputs and STATUS a command leaves depend only on what R106 says it reads. -/
def Obligations.CommandsReadOnlyTheirOperands : Prop :=
  ∀ (i : Instr) (s s' t t' : State), Memory.wf s.mem = true → Memory.wf s'.mem = true → OutputsZero s → OutputsZero s' →
    SameOperands i s s' → exec i s = .next t → exec i s' = .next t' → SameOutputs t t'

/-- R199: CCM_DEC of what CCM_ENC produced, with the same KEY, NONCE, M8, LEN_A and MIC, succeeds and gives back the plaintext. -/
def Obligations.CcmRoundTrip : Prop :=
  ∀ (m : MicSize) (s t s' : State), Memory.wf s.mem = true → Memory.wf s'.mem = true → s.lenA.toNat ≤ 1024 →
    exec (.ccmEnc m) s = .next t → s'.key = s.key → s'.nonce = s.nonce → s'.lenA = s.lenA →
    (∀ i < s.lenA.toNat, Memory.get s'.mem (0x400 + i) = Memory.get t.mem (0xC00 + i)) →
    s'.micIn.toList.take m.bytes = t.result0.toList.take m.bytes →
    ∃ t', exec (.ccmDec m) s' = .next t' ∧ t'.done = true ∧ t'.err = false ∧
      ∀ i < s.lenA.toNat, Memory.get t'.mem (0xC00 + i) = Memory.get s.mem (0x400 + i)

/-- R243: DEOBF of what OBF produced, with the same KEY, IVINDEX, PRAND and LEN_A, gives back the data. -/
def Obligations.ObfuscationInverse : Prop :=
  ∀ s t s' : State, Memory.wf s.mem = true → Memory.wf s'.mem = true → 1 ≤ s.lenA.toNat → s.lenA.toNat ≤ 1024 →
    exec .obf s = .next t → s'.key = s.key → s'.ivindex = s.ivindex → s'.prand = s.prand → s'.lenA = s.lenA →
    (∀ i < s.lenA.toNat, Memory.get s'.mem (0x400 + i) = Memory.get t.mem (0xC00 + i)) →
    ∃ t', exec .deobf s' = .next t' ∧ t'.done = true ∧
      ∀ i < s.lenA.toNat, Memory.get t'.mem (0xC00 + i) = Memory.get s.mem (0x400 + i)

/-- R133, R134: the S-box table is the affine image of the inverse, on all 256 entries, and the inverse is one. -/
def Obligations.SboxTableIsItsFormula : Prop :=
  ∀ a : Byte, sbox a = sboxFormula a ∧ (a ≠ 0 → gmul a (gfInv a) = 1) ∧ gfInv 0 = 0

/-! ### Time, platform, host scripts -/

/-- R312: with any LATENCY, a command accepted in an IDLE machine stays in progress, unchanged, for LATENCY(op, LEN_A, LEN_B, M8) - 1
clock cycles, and the last of LATENCY cycles is the engine's step; and accesses between those cycles, however many, leave the count as it
is, change nothing but INTEN and INTFLAG, and change no output of the completion (R80, R116, R118). The timed model's conventions:
notes/assumptions/9.md. -/
def Obligations.CompletionAfterLatency : Prop :=
  ∀ (l : Config.Latency) (t : Timed) (w : Word), t.core.phase = .idle →
    ∃ u n, (timedAccess l (.write 0x004 4 w) t) = (u, .written) ∧ u.core = (busAccess (.write 0x004 4 w) t.core).1 ∧
      n = l.cycles (w.extractLsb' 0 8) t.core.lenA.toNat t.core.lenB.toNat (w.getLsbD 8) ∧
      (∀ j < n, timedClocks j u = .next { core := u.core, left := n - j }) ∧
      (∃ v, timedClocks n u = .next v ∧ engineTurn u.core = .next v.core ∧ v.core.phase = .idle) ∧
      ∀ es, clockCount es < n → ∃ v e f, timedEvents l es u = .next v ∧
        v = { core := { u.core with inten := e, intflag := f }, left := n - clockCount es } ∧
        (clockCount es + 1 = n → ∃ x y, timedEvents l (es ++ [.clock]) u = .next x ∧ engineTurn v.core = .next x.core ∧
          x.core.phase = .idle ∧ engineTurn u.core = .next y ∧ SameOutputs x.core y)

/-- R141, R312: two machines that accept the same command with the same LEN_A and LEN_B are BUSY for the same clock cycles, whatever
KEY, NONCE, PRAND, IVINDEX, MIC_IN and the buffers hold (the timed model's conventions: notes/assumptions/9.md). -/
def Obligations.LatencyDoesNotDependOnSecrets : Prop :=
  ∀ (l : Config.Latency) (t t' : Timed) (w : Word), t.core.phase = .idle → t'.core.phase = .idle →
    t.core.lenA = t'.core.lenA → t.core.lenB = t'.core.lenB →
    ∀ n, ∃ v v', timedClocks n (timedAccess l (.write 0x004 4 w) t).1 = .next v ∧
      timedClocks n (timedAccess l (.write 0x004 4 w) t').1 = .next v' ∧ v.core.phase = v'.core.phase

/-- R70, R283: an access by host address is the offset access of the unit placed there; it and a step of one unit leave every other unit
as it is (the platform model's conventions: notes/assumptions/10.md). -/
def Obligations.PlatformUnitsShareNothing : Prop :=
  (∀ (p : Platform) (k : Nat) (u : Placed) (a : Access), p.units[k]? = some u → placedAt a.offset u = true →
    (∀ j < k, ∀ x, p.units[j]? = some x → placedAt a.offset x = false) →
    ∃ q, Platform.access a p = some (q, (busAccess (relocate u.base a) u.core).2) ∧
      q.units[k]? = some { base := u.base, core := (busAccess (relocate u.base a) u.core).1 } ∧
      ∀ j, j ≠ k → q.units[j]? = p.units[j]?) ∧
  ∀ (p : Platform) (k : Nat) (u : Placed), p.units[k]? = some u →
    ∃ q s, nextTurn u.core = .next s ∧ Platform.stepUnit k p = .next q ∧ q.units[k]? = some { base := u.base, core := s } ∧
      ∀ j, j ≠ k → q.units[j]? = p.units[j]?

/-- R109, R74: the accesses of `load KEY, b0 ... b15` on an IDLE machine leave KEY holding the 16 bytes, byte 0 first, and change nothing
else. -/
def Obligations.LoadKeyStoresTheString : Prop :=
  ∀ (s : State) (k : Vector Byte 16), s.phase = .idle →
    accesses ((loadStmts (RegName.base .key) k.toList).map Stmt.toAccess) s = { s with key := k }

/-- R109: a host at `wait` reads STATUS; while BUSY it stays there, and once IDLE it goes on; its turn changes nothing of the MSC (the
host agent is the model's own: notes/assumptions/2.md). -/
def Obligations.HostWaitsUntilNotBusy : Prop :=
  ∀ (s : State) (k : Nat) (rest : List HostOp) (log : List BusResponse), s.hosts[k]? = some ⟨.wait :: rest, log⟩ →
    hostTurn k s =
      { s with hosts := s.hosts.set k ⟨if s.phase = .busy then .wait :: rest else rest, .data s.statusWord :: log⟩ }
end

