-- ==== Sys2Proof/Laws/Bytes.lean ====
section
/-! SUPPORT. The laws of byte strings, blocks and byte lanes, and the lengths of the strings the engines make. -/

namespace Sys2Proof.Machine

/-! ### Blocks -/

theorem blockAt_blockBuild (f : Nat → Byte) {i : Nat} (h : i < 16) : blockAt (blockBuild f) i = f i := by
  interval_cases i <;> rfl

theorem block_ext {a b : Block} (h : ∀ i < 16, blockAt a i = blockAt b i) : a = b := by
  apply Vector.ext
  intro i hi
  simpa [blockAt, hi] using h i hi

theorem blockAt_blockXor (a b : Block) {i : Nat} (h : i < 16) :
    blockAt (blockXor a b) i = blockAt a i ^^^ blockAt b i := by
  rw [blockXor, blockAt_blockBuild _ h]

theorem blockAt_blockOf (l : List Byte) {i : Nat} (h : i < 16) : blockAt (blockOf l) i = l.getD i 0 := by
  rw [blockOf, blockAt_blockBuild _ h]

/-! ### XOR of strings -/

@[simp] theorem length_xorBytes (a b : List Byte) : (xorBytes a b).length = min a.length b.length := by
  simp [xorBytes]

/-- XOR with one string twice gives back the other. -/
theorem xorBytes_cancel {a b : List Byte} (h : a.length ≤ b.length) : xorBytes (xorBytes a b) b = a := by
  induction a generalizing b with
  | nil => rfl
  | cons x a ih =>
    cases b with
    | nil => simp at h
    | cons y b =>
      have hx : x ^^^ y ^^^ y = x := by rw [BitVec.xor_assoc, BitVec.xor_self, BitVec.xor_zero]
      simpa [xorBytes, hx] using ih (by simpa using h)

/-! ### The engines' strings -/

@[simp] theorem length_keystream (k : Block) (n : Vector Byte 13) (b : Nat) : (keystream k n b).length = 16 * b := by
  induction b with
  | zero => rfl
  | succ b ih =>
    have h : keystream k n (b + 1) = keystream k n b ++ (ccmStream k n (b + 1)).toList := by
      simp [keystream, List.range_succ]
    rw [h, List.length_append, ih, Vector.length_toList]
    omega

/-- The keystream of R194 covers the data. -/
theorem le_ceil16 (x : Nat) : x ≤ 16 * ceil16 x := by
  simp only [ceil16]; omega

@[simp] theorem length_ctr (k : Block) (n : Vector Byte 13) (d : List Byte) : (ctr k n d).length = d.length := by
  have := le_ceil16 d.length
  simp [ctr]; omega

/-- ctr is its own inverse (R194). -/
theorem ctr_ctr (k : Block) (n : Vector Byte 13) (d : List Byte) : ctr k n (ctr k n d) = d := by
  have h := le_ceil16 d.length
  have hl : d.length ≤ ((keystream k n (ceil16 d.length)).take d.length).length := by simp; omega
  rw [show ctr k n (ctr k n d) = xorBytes (ctr k n d) ((keystream k n (ceil16 (ctr k n d).length)).take (ctr k n d).length) from rfl,
    length_ctr]
  exact xorBytes_cancel hl

theorem length_ccmMic (k : Block) (n : Vector Byte 13) {m : Nat} (hm : m ≤ 16) (p : List Byte) :
    (ccmMic k n m p).length = m := by
  simp [ccmMic]; omega

@[simp] theorem length_obfuscate (d : List Byte) (pr : Vector Byte 7) (iv : Word) (pk : Block) :
    (obfuscate d pr iv pk).length = d.length := by
  simp [obfuscate]

/-- The transform is its own inverse (R242). -/
theorem obfuscate_obfuscate (d : List Byte) (pr : Vector Byte 7) (iv : Word) (pk : Block) :
    obfuscate (obfuscate d pr iv pk) pr iv pk = d := by
  have hx : (xorBytes (d.take (min 6 d.length)) ((pecb pk iv pr).toList.take (min 6 d.length))).length = min 6 d.length := by
    simp
  rw [show obfuscate (obfuscate d pr iv pk) pr iv pk =
      xorBytes ((obfuscate d pr iv pk).take (min 6 (obfuscate d pr iv pk).length))
        ((pecb pk iv pr).toList.take (min 6 (obfuscate d pr iv pk).length)) ++
        (obfuscate d pr iv pk).drop (min 6 (obfuscate d pr iv pk).length) from rfl, length_obfuscate]
  have ht : (obfuscate d pr iv pk).take (min 6 d.length) =
      xorBytes (d.take (min 6 d.length)) ((pecb pk iv pr).toList.take (min 6 d.length)) :=
    List.take_left' hx
  have hd : (obfuscate d pr iv pk).drop (min 6 d.length) = d.drop (min 6 d.length) := List.drop_left' hx
  rw [ht, hd, xorBytes_cancel (by simp), List.take_append_drop]

/-! ### Bytes of the engines' strings -/

theorem getD_xorBytes {a b : List Byte} {i : Nat} (h : i < a.length) (h2 : i < b.length) :
    (xorBytes a b).getD i 0 = a.getD i 0 ^^^ b.getD i 0 := by
  simp [xorBytes, h, h2, List.getD_eq_getElem?_getD]

theorem getD_take (a : List Byte) {n i : Nat} (h : i < n) : (a.take n).getD i 0 = a.getD i 0 := by
  simp [List.getD_eq_getElem?_getD, h]

/-- Byte i of the keystream is byte i mod 16 of S_(i/16 + 1) (R194). -/
theorem getD_keystream (k : Block) (n : Vector Byte 13) {b i : Nat} (h : i < 16 * b) :
    (keystream k n b).getD i 0 = blockAt (ccmStream k n (i / 16 + 1)) (i % 16) := by
  induction b with
  | zero => omega
  | succ b ih =>
    have hs : keystream k n (b + 1) = keystream k n b ++ (ccmStream k n (b + 1)).toList := by
      simp [keystream, List.range_succ]
    rw [hs]
    by_cases hi : i < 16 * b
    · rw [List.getD_append _ _ _ _ (by simpa using hi), ih hi]
    · rw [List.getD_append_right _ _ _ _ (by simp; omega), length_keystream]
      have h2 : i / 16 = b ∧ i % 16 = i - 16 * b := by omega
      rw [h2.1, h2.2]
      rfl

theorem getD_ctr (k : Block) (n : Vector Byte 13) {d : List Byte} {i : Nat} (h : i < d.length) :
    (ctr k n d).getD i 0 = d.getD i 0 ^^^ blockAt (ccmStream k n (i / 16 + 1)) (i % 16) := by
  have hl := le_ceil16 d.length
  rw [ctr, getD_xorBytes h (by simp; omega), getD_take _ h, getD_keystream _ _ (by omega)]

theorem getD_obfuscate {d : List Byte} (pr : Vector Byte 7) (iv : Word) (pk : Block) {i : Nat} (h : i < d.length) :
    (obfuscate d pr iv pk).getD i 0 = if i < 6 then d.getD i 0 ^^^ blockAt (pecb pk iv pr) i else d.getD i 0 := by
  have hx : (xorBytes (d.take (min 6 d.length)) ((pecb pk iv pr).toList.take (min 6 d.length))).length = min 6 d.length := by
    simp
  rw [obfuscate]
  split
  · rw [List.getD_append _ _ _ _ (by rw [hx]; omega), getD_xorBytes (by simp; omega) (by simp; omega),
      getD_take _ (by omega), getD_take _ (by omega)]
    rfl
  · rw [List.getD_append_right _ _ _ _ (by rw [hx]; omega), hx]
    simp [List.getD_eq_getElem?_getD]
    congr 2
    omega

/-! ### The MIC comparison -/

theorem foldl_or_eq_zero (l : List Byte) (a : Byte) : l.foldl (· ||| ·) a = 0 ↔ a = 0 ∧ ∀ x ∈ l, x = 0 := by
  induction l generalizing a with
  | nil => simp
  | cons x l ih =>
    rw [List.foldl_cons, ih]
    constructor
    · rintro ⟨h, hl⟩
      have ha : a = 0 ∧ x = 0 := by
        constructor
        · exact BitVec.eq_of_getLsbD_eq fun i _ => by
            have := congrArg (fun v : Byte => v.getLsbD i) h
            simp only [BitVec.getLsbD_or] at this
            simp_all
        · exact BitVec.eq_of_getLsbD_eq fun i _ => by
            have := congrArg (fun v : Byte => v.getLsbD i) h
            simp only [BitVec.getLsbD_or] at this
            simp_all
      exact ⟨ha.1, List.forall_mem_cons.2 ⟨ha.2, hl⟩⟩
    · rintro ⟨rfl, hl⟩
      have := List.forall_mem_cons.1 hl
      exact ⟨by simp [this.1], this.2⟩

/-- The comparison of R196 accepts exactly equal strings. -/
theorem micEqual_iff {u r : List Byte} (h : u.length = r.length) : micEqual u r = true ↔ u = r := by
  simp only [micEqual, beq_iff_eq]
  rw [foldl_or_eq_zero]
  simp only [true_and]
  induction u generalizing r with
  | nil => cases r <;> simp_all [xorBytes]
  | cons x u ih =>
    cases r with
    | nil => simp at h
    | cons y r =>
      have hxy : x ^^^ y = 0 ↔ x = y := by
        constructor
        · intro e
          have : x ^^^ y ^^^ y = 0 ^^^ y := by rw [e]
          simpa [BitVec.xor_assoc] using this
        · rintro rfl; simp
      have := ih (r := r) (by simpa using h)
      simp only [xorBytes] at this
      simp only [xorBytes, List.zipWith_cons_cons, List.forall_mem_cons, List.cons.injEq, hxy, this]

/-! ### Byte lanes -/

theorem laneOf_setLane_eq (v : Word) {i : Nat} (h : i < 4) (b : Byte) : laneOf (setLane v i b) i = b := by
  apply BitVec.eq_of_getLsbD_eq
  intro j hj
  simp only [laneOf, setLane]
  interval_cases i <;> interval_cases j <;> simp

theorem laneOf_setLane_ne (v : Word) {i j : Nat} (hi : i < 4) (hj : j < 4) (h : i ≠ j) (b : Byte) :
    laneOf (setLane v i b) j = laneOf v j := by
  apply BitVec.eq_of_getLsbD_eq
  intro k hk
  simp only [laneOf, setLane]
  interval_cases i <;> interval_cases j <;> first | exact absurd rfl h | (interval_cases k <;> simp)

/-- A word is its four lanes. -/
theorem word_ext_lanes {v w : Word} (h : ∀ i < 4, laneOf v i = laneOf w i) : v = w := by
  apply BitVec.eq_of_getLsbD_eq
  intro j hj
  have := congrArg (fun b : Byte => b.getLsbD (j % 8)) (h (j / 8) (by omega))
  simp only [laneOf, BitVec.getLsbD_extractLsb'] at this
  have h8 : j % 8 < 8 := Nat.mod_lt _ (by decide)
  simpa [h8, Nat.div_add_mod] using this

end Sys2Proof.Machine
end

