-- ==== Sys2Proof/Laws/Memory.lean ====
section
/-! SUPPORT. The laws of memory: a read after a write, a write and the other addresses, and that every operation keeps the
canonical form. -/

namespace Sys2Proof.Machine

/-- In canonical form every cell after the first has a higher address than the first. -/
theorem Memory.wf_tail_gt {c : Host.Cell} {m : List Host.Cell} (h : Memory.wf (c :: m) = true) : ∀ d ∈ m, c.1 < d.1 := by
  induction m generalizing c with
  | nil => simp
  | cons d rest ih =>
    simp only [Memory.wf, Bool.and_eq_true, decide_eq_true_eq] at h
    intro e he
    rcases List.mem_cons.1 he with rfl | he
    · exact h.1.1
    · exact lt_trans h.1.1 (ih h.2 e he)

theorem Memory.wf_tail {c : Host.Cell} {m : List Host.Cell} (h : Memory.wf (c :: m) = true) : Memory.wf m = true := by
  cases m with
  | nil => rfl
  | cons d rest => simp only [Memory.wf, Bool.and_eq_true] at h; exact h.2

theorem Memory.wf_head {c : Host.Cell} {m : List Host.Cell} (h : Memory.wf (c :: m) = true) : c.2 ≠ Memory.unlisted := by
  cases m with
  | nil => simpa [Memory.wf] using h
  | cons d rest => simp only [Memory.wf, Bool.and_eq_true, decide_eq_true_eq] at h; exact h.1.2

/-- The canonical form from its parts. -/
theorem Memory.wf_cons {c : Host.Cell} {m : List Host.Cell} (hv : c.2 ≠ Memory.unlisted) (hlt : ∀ d ∈ m, c.1 < d.1)
    (hm : Memory.wf m = true) : Memory.wf (c :: m) = true := by
  cases m with
  | nil => simpa [Memory.wf] using hv
  | cons d rest => simp [Memory.wf, hv, hm, hlt d (List.mem_cons_self ..)]

/-- An address no cell holds reads as the unlisted value. -/
theorem Memory.get_of_not_mem {m : List Host.Cell} {a : Nat} (h : ∀ d ∈ m, d.1 ≠ a) : Memory.get m a = Memory.unlisted := by
  induction m with
  | nil => rfl
  | cons d rest ih =>
    simp only [Memory.get, h d (List.mem_cons_self ..), if_false]
    exact ih fun e he => h e (List.mem_cons_of_mem _ he)

/-- A write leaves every other address alone, in any memory. -/
theorem Memory.get_set_ne (m : List Host.Cell) {a b : Nat} (v : Byte) (h : b ≠ a) :
    Memory.get (Memory.set m a v) b = Memory.get m b := by
  induction m with
  | nil => by_cases hv : v = Memory.unlisted <;> simp [Memory.set, Memory.get, hv, Ne.symm h]
  | cons c rest ih =>
    by_cases h1 : a < c.1
    · by_cases hv : v = Memory.unlisted <;> simp [Memory.set, Memory.get, h1, hv, Ne.symm h]
    · by_cases h2 : a = c.1
      · subst h2
        by_cases hv : v = Memory.unlisted <;> simp [Memory.set, Memory.get, hv, Ne.symm h]
      · simp [Memory.set, Memory.get, h1, h2, ih]

/-- A read after a write to the same address gives the value written. -/
theorem Memory.get_set_eq {m : List Host.Cell} (hm : Memory.wf m = true) (a : Nat) (v : Byte) :
    Memory.get (Memory.set m a v) a = v := by
  induction m with
  | nil => by_cases hv : v = Memory.unlisted <;> simp [Memory.set, Memory.get, hv]
  | cons c rest ih =>
    have hgt := Memory.wf_tail_gt hm
    by_cases h1 : a < c.1
    · by_cases hv : v = Memory.unlisted
      · rw [hv]
        simp only [Memory.set, h1, if_true]
        refine Memory.get_of_not_mem fun d hd => ?_
        rcases List.mem_cons.1 hd with rfl | hd
        · omega
        · have := hgt d hd; omega
      · simp [Memory.set, Memory.get, h1, hv]
    · by_cases h2 : a = c.1
      · subst h2
        by_cases hv : v = Memory.unlisted
        · rw [hv]
          simp only [Memory.set, lt_irrefl, if_false, if_true]
          exact Memory.get_of_not_mem fun d hd => (hgt d hd).ne'
        · simp [Memory.set, Memory.get, hv]
      · simp [Memory.set, Memory.get, h1, h2, Ne.symm h2, ih (Memory.wf_tail hm)]

/-- The cells after a write: the one written, or one that was there. -/
theorem Memory.mem_set {m : List Host.Cell} {a : Nat} {v : Byte} {c : Host.Cell} (h : c ∈ Memory.set m a v) :
    c = (a, v) ∨ c ∈ m := by
  induction m with
  | nil =>
    simp only [Memory.set] at h
    split at h
    · simp at h
    · exact .inl (by simpa using h)
  | cons d rest ih =>
    simp only [Memory.set] at h
    split at h
    · split at h
      · exact .inr h
      · simpa using h
    · split at h
      · split at h
        · exact .inr (List.mem_cons_of_mem _ h)
        · rcases List.mem_cons.1 h with rfl | h
          · exact .inl rfl
          · exact .inr (List.mem_cons_of_mem _ h)
      · rcases List.mem_cons.1 h with rfl | h
        · exact .inr (List.mem_cons_self ..)
        · exact (ih h).imp_right (List.mem_cons_of_mem _)

theorem Memory.wf_set {m : List Host.Cell} (hm : Memory.wf m = true) (a : Nat) (v : Byte) :
    Memory.wf (Memory.set m a v) = true := by
  induction m with
  | nil => by_cases hv : v = Memory.unlisted <;> simp [Memory.set, Memory.wf, hv]
  | cons c rest ih =>
    have hgt := Memory.wf_tail_gt hm
    by_cases h1 : a < c.1
    · by_cases hv : v = Memory.unlisted
      · simpa [Memory.set, h1, hv] using hm
      · simp only [Memory.set, h1, hv, if_true, if_false]
        refine Memory.wf_cons hv (fun d hd => ?_) hm
        rcases List.mem_cons.1 hd with rfl | hd
        · exact h1
        · exact lt_trans h1 (hgt d hd)
    · by_cases h2 : a = c.1
      · subst h2
        by_cases hv : v = Memory.unlisted
        · simpa [Memory.set, hv] using Memory.wf_tail hm
        · simp only [Memory.set, lt_irrefl, hv, if_true, if_false]
          exact Memory.wf_cons hv hgt (Memory.wf_tail hm)
      · simp only [Memory.set, h1, h2, if_false]
        refine Memory.wf_cons (Memory.wf_head hm) (fun d hd => ?_) (ih (Memory.wf_tail hm))
        rcases Memory.mem_set hd with rfl | hd
        · exact lt_of_le_of_ne (not_lt.1 h1) (Ne.symm h2)
        · exact hgt d hd

theorem Memory.mem_clear {m : List Host.Cell} {lo hi : Nat} {c : Host.Cell} :
    c ∈ Memory.clear m lo hi ↔ c ∈ m ∧ ¬(lo ≤ c.1 ∧ c.1 < hi) := by
  simp only [Memory.clear, List.mem_filter, decide_eq_true_eq]
  exact and_congr_right fun _ => by omega

theorem Memory.wf_clear {m : List Host.Cell} (hm : Memory.wf m = true) (lo hi : Nat) :
    Memory.wf (Memory.clear m lo hi) = true := by
  induction m with
  | nil => rfl
  | cons c rest ih =>
    have ih := ih (Memory.wf_tail hm)
    by_cases h : c.1 < lo ∨ hi ≤ c.1
    · have hc : Memory.clear (c :: rest) lo hi = c :: Memory.clear rest lo hi := by simp [Memory.clear, h]
      rw [hc]
      exact Memory.wf_cons (Memory.wf_head hm) (fun d hd => Memory.wf_tail_gt hm d (Memory.mem_clear.1 hd).1) ih
    · simpa [Memory.clear, h] using ih

/-- A cleared byte reads as the unlisted value, in any memory. -/
theorem Memory.get_clear_in (m : List Host.Cell) {lo hi a : Nat} (h1 : lo ≤ a) (h2 : a < hi) :
    Memory.get (Memory.clear m lo hi) a = Memory.unlisted :=
  Memory.get_of_not_mem fun d hd he => (Memory.mem_clear.1 hd).2 (by omega)

/-- Clearing a range leaves every other address alone, in any memory. -/
theorem Memory.get_clear_out (m : List Host.Cell) {lo hi a : Nat} (h : ¬(lo ≤ a ∧ a < hi)) :
    Memory.get (Memory.clear m lo hi) a = Memory.get m a := by
  induction m with
  | nil => rfl
  | cons c rest ih =>
    by_cases hc : c.1 < lo ∨ hi ≤ c.1
    · have hcons : Memory.clear (c :: rest) lo hi = c :: Memory.clear rest lo hi := by simp [Memory.clear, hc]
      rw [hcons]
      simp only [Memory.get, ih]
    · have hne : c.1 ≠ a := by rintro rfl; omega
      simpa [Memory.clear, hc, Memory.get, hne] using ih

theorem Memory.wf_store {m : List Host.Cell} (hm : Memory.wf m = true) (a : Nat) (bs : List Byte) :
    Memory.wf (Memory.store m a bs) = true := by
  induction bs generalizing m a with
  | nil => exact hm
  | cons b rest ih => exact ih (Memory.wf_set hm a b) (a + 1)

theorem Memory.mem_store {m : List Host.Cell} {a : Nat} {bs : List Byte} {c : Host.Cell} (h : c ∈ Memory.store m a bs) :
    (a ≤ c.1 ∧ c.1 < a + bs.length) ∨ c ∈ m := by
  induction bs generalizing m a with
  | nil => exact .inr h
  | cons b rest ih =>
    rcases ih (m := Memory.set m a b) (a := a + 1) h with ⟨h1, h2⟩ | h
    · exact .inl ⟨by omega, by simp; omega⟩
    · rcases Memory.mem_set h with rfl | h
      · exact .inl ⟨le_refl _, by simp⟩
      · exact .inr h

/-- A stored string leaves the addresses outside it alone, in any memory. -/
theorem Memory.get_store_out (m : List Host.Cell) (a : Nat) (bs : List Byte) {b : Nat} (h : b < a ∨ a + bs.length ≤ b) :
    Memory.get (Memory.store m a bs) b = Memory.get m b := by
  induction bs generalizing m a with
  | nil => rfl
  | cons v rest ih =>
    simp only [List.length_cons] at h
    rw [Memory.store, ih _ _ (by omega), Memory.get_set_ne _ _ (by omega)]

/-- Byte i of a stored string reads back. -/
theorem Memory.get_store_in {m : List Host.Cell} (hm : Memory.wf m = true) (a : Nat) (bs : List Byte) {i : Nat}
    (h : i < bs.length) : Memory.get (Memory.store m a bs) (a + i) = bs.getD i 0 := by
  induction bs generalizing m a i with
  | nil => simp at h
  | cons v rest ih =>
    cases i with
    | zero =>
      rw [Memory.store, show a + 0 = a from rfl, Memory.get_store_out _ _ _ (.inl (Nat.lt_succ_self a)), Memory.get_set_eq hm]
      rfl
    | succ j =>
      have hj : j < rest.length := by simpa using h
      rw [Memory.store, show a + (j + 1) = a + 1 + j by omega, ih (Memory.wf_set hm a v) (a + 1) hj]
      rfl

@[simp] theorem Memory.length_load (m : List Host.Cell) (a n : Nat) : (Memory.load m a n).length = n := by
  simp [Memory.load]

theorem Memory.getD_load (m : List Host.Cell) (a n : Nat) {i : Nat} (h : i < n) :
    (Memory.load m a n).getD i 0 = Memory.get m (a + i) := by
  simp [Memory.load, h]

/-- Two memories that agree on a range load the same string from it. -/
theorem Memory.load_congr {m m' : List Host.Cell} {a a' n : Nat}
    (h : ∀ i < n, Memory.get m (a + i) = Memory.get m' (a' + i)) : Memory.load m a n = Memory.load m' a' n := by
  simp only [Memory.load]
  exact List.map_congr_left fun i hi => h i (List.mem_range.1 hi)

end Sys2Proof.Machine
end

