-- ==== Sys2Proof/Laws/State.lean ====
section
/-! SUPPORT. What each shared operation does to each field of State: one lemma per operation and field, true by rfl, so that no
proof unfolds a record update. -/

namespace Sys2Proof.Machine

/-! ### accept -/

@[simp] theorem accept_phase (w : Word) (s : State) : (accept w s).phase = .busy := rfl
@[simp] theorem accept_cmdl (w : Word) (s : State) : (accept w s).cmdl = w := rfl
@[simp] theorem accept_done (w : Word) (s : State) : (accept w s).done = false := rfl
@[simp] theorem accept_err (w : Word) (s : State) : (accept w s).err = false := rfl
@[simp] theorem accept_errcode (w : Word) (s : State) : (accept w s).errcode = 0 := rfl
@[simp] theorem accept_lastop (w : Word) (s : State) : (accept w s).lastop = w.extractLsb' 0 8 := rfl
@[simp] theorem accept_inten (w : Word) (s : State) : (accept w s).inten = s.inten := rfl
@[simp] theorem accept_intflag (w : Word) (s : State) : (accept w s).intflag = s.intflag := rfl
@[simp] theorem accept_lenA (w : Word) (s : State) : (accept w s).lenA = s.lenA := rfl
@[simp] theorem accept_lenB (w : Word) (s : State) : (accept w s).lenB = s.lenB := rfl
@[simp] theorem accept_ivindex (w : Word) (s : State) : (accept w s).ivindex = s.ivindex := rfl
@[simp] theorem accept_key (w : Word) (s : State) : (accept w s).key = s.key := rfl
@[simp] theorem accept_nonce (w : Word) (s : State) : (accept w s).nonce = s.nonce := rfl
@[simp] theorem accept_prand (w : Word) (s : State) : (accept w s).prand = s.prand := rfl
@[simp] theorem accept_micIn (w : Word) (s : State) : (accept w s).micIn = s.micIn := rfl
@[simp] theorem accept_result0 (w : Word) (s : State) : (accept w s).result0 = zeroBlock := rfl
@[simp] theorem accept_result1 (w : Word) (s : State) : (accept w s).result1 = zeroBlock := rfl
@[simp] theorem accept_result2 (w : Word) (s : State) : (accept w s).result2 = 0 := rfl
@[simp] theorem accept_mem (w : Word) (s : State) : (accept w s).mem = Memory.clear s.mem 0xC00 0x1000 := rfl
@[simp] theorem accept_hosts (w : Word) (s : State) : (accept w s).hosts = s.hosts := rfl
@[simp] theorem accept_sched (w : Word) (s : State) : (accept w s).sched = s.sched := rfl

/-! ### raiseFlag -/

@[simp] theorem raiseFlag_phase (f : BitVec 3) (s : State) : (raiseFlag f s).phase = s.phase := rfl
@[simp] theorem raiseFlag_cmdl (f : BitVec 3) (s : State) : (raiseFlag f s).cmdl = s.cmdl := rfl
@[simp] theorem raiseFlag_done (f : BitVec 3) (s : State) : (raiseFlag f s).done = s.done := rfl
@[simp] theorem raiseFlag_err (f : BitVec 3) (s : State) : (raiseFlag f s).err = s.err := rfl
@[simp] theorem raiseFlag_errcode (f : BitVec 3) (s : State) : (raiseFlag f s).errcode = s.errcode := rfl
@[simp] theorem raiseFlag_lastop (f : BitVec 3) (s : State) : (raiseFlag f s).lastop = s.lastop := rfl
@[simp] theorem raiseFlag_inten (f : BitVec 3) (s : State) : (raiseFlag f s).inten = s.inten := rfl
@[simp] theorem raiseFlag_intflag (f : BitVec 3) (s : State) : (raiseFlag f s).intflag = s.intflag ||| f := rfl
@[simp] theorem raiseFlag_lenA (f : BitVec 3) (s : State) : (raiseFlag f s).lenA = s.lenA := rfl
@[simp] theorem raiseFlag_lenB (f : BitVec 3) (s : State) : (raiseFlag f s).lenB = s.lenB := rfl
@[simp] theorem raiseFlag_ivindex (f : BitVec 3) (s : State) : (raiseFlag f s).ivindex = s.ivindex := rfl
@[simp] theorem raiseFlag_key (f : BitVec 3) (s : State) : (raiseFlag f s).key = s.key := rfl
@[simp] theorem raiseFlag_nonce (f : BitVec 3) (s : State) : (raiseFlag f s).nonce = s.nonce := rfl
@[simp] theorem raiseFlag_prand (f : BitVec 3) (s : State) : (raiseFlag f s).prand = s.prand := rfl
@[simp] theorem raiseFlag_micIn (f : BitVec 3) (s : State) : (raiseFlag f s).micIn = s.micIn := rfl
@[simp] theorem raiseFlag_result0 (f : BitVec 3) (s : State) : (raiseFlag f s).result0 = s.result0 := rfl
@[simp] theorem raiseFlag_result1 (f : BitVec 3) (s : State) : (raiseFlag f s).result1 = s.result1 := rfl
@[simp] theorem raiseFlag_result2 (f : BitVec 3) (s : State) : (raiseFlag f s).result2 = s.result2 := rfl
@[simp] theorem raiseFlag_mem (f : BitVec 3) (s : State) : (raiseFlag f s).mem = s.mem := rfl
@[simp] theorem raiseFlag_hosts (f : BitVec 3) (s : State) : (raiseFlag f s).hosts = s.hosts := rfl
@[simp] theorem raiseFlag_sched (f : BitVec 3) (s : State) : (raiseFlag f s).sched = s.sched := rfl

/-! ### overrun -/

@[simp] theorem overrun_phase (s : State) : (overrun s).phase = s.phase := rfl
@[simp] theorem overrun_cmdl (s : State) : (overrun s).cmdl = s.cmdl := rfl
@[simp] theorem overrun_done (s : State) : (overrun s).done = s.done := rfl
@[simp] theorem overrun_err (s : State) : (overrun s).err = s.err := rfl
@[simp] theorem overrun_errcode (s : State) : (overrun s).errcode = s.errcode := rfl
@[simp] theorem overrun_lastop (s : State) : (overrun s).lastop = s.lastop := rfl
@[simp] theorem overrun_inten (s : State) : (overrun s).inten = s.inten := rfl
@[simp] theorem overrun_intflag (s : State) : (overrun s).intflag = s.intflag ||| ovrIF := rfl
@[simp] theorem overrun_lenA (s : State) : (overrun s).lenA = s.lenA := rfl
@[simp] theorem overrun_lenB (s : State) : (overrun s).lenB = s.lenB := rfl
@[simp] theorem overrun_ivindex (s : State) : (overrun s).ivindex = s.ivindex := rfl
@[simp] theorem overrun_key (s : State) : (overrun s).key = s.key := rfl
@[simp] theorem overrun_nonce (s : State) : (overrun s).nonce = s.nonce := rfl
@[simp] theorem overrun_prand (s : State) : (overrun s).prand = s.prand := rfl
@[simp] theorem overrun_micIn (s : State) : (overrun s).micIn = s.micIn := rfl
@[simp] theorem overrun_result0 (s : State) : (overrun s).result0 = s.result0 := rfl
@[simp] theorem overrun_result1 (s : State) : (overrun s).result1 = s.result1 := rfl
@[simp] theorem overrun_result2 (s : State) : (overrun s).result2 = s.result2 := rfl
@[simp] theorem overrun_mem (s : State) : (overrun s).mem = s.mem := rfl
@[simp] theorem overrun_hosts (s : State) : (overrun s).hosts = s.hosts := rfl
@[simp] theorem overrun_sched (s : State) : (overrun s).sched = s.sched := rfl

/-! ### clearFlags -/

@[simp] theorem clearFlags_phase (f : BitVec 3) (s : State) : (clearFlags f s).phase = s.phase := rfl
@[simp] theorem clearFlags_cmdl (f : BitVec 3) (s : State) : (clearFlags f s).cmdl = s.cmdl := rfl
@[simp] theorem clearFlags_done (f : BitVec 3) (s : State) : (clearFlags f s).done = s.done := rfl
@[simp] theorem clearFlags_err (f : BitVec 3) (s : State) : (clearFlags f s).err = s.err := rfl
@[simp] theorem clearFlags_errcode (f : BitVec 3) (s : State) : (clearFlags f s).errcode = s.errcode := rfl
@[simp] theorem clearFlags_lastop (f : BitVec 3) (s : State) : (clearFlags f s).lastop = s.lastop := rfl
@[simp] theorem clearFlags_inten (f : BitVec 3) (s : State) : (clearFlags f s).inten = s.inten := rfl
@[simp] theorem clearFlags_intflag (f : BitVec 3) (s : State) : (clearFlags f s).intflag = s.intflag &&& ~~~f := rfl
@[simp] theorem clearFlags_lenA (f : BitVec 3) (s : State) : (clearFlags f s).lenA = s.lenA := rfl
@[simp] theorem clearFlags_lenB (f : BitVec 3) (s : State) : (clearFlags f s).lenB = s.lenB := rfl
@[simp] theorem clearFlags_ivindex (f : BitVec 3) (s : State) : (clearFlags f s).ivindex = s.ivindex := rfl
@[simp] theorem clearFlags_key (f : BitVec 3) (s : State) : (clearFlags f s).key = s.key := rfl
@[simp] theorem clearFlags_nonce (f : BitVec 3) (s : State) : (clearFlags f s).nonce = s.nonce := rfl
@[simp] theorem clearFlags_prand (f : BitVec 3) (s : State) : (clearFlags f s).prand = s.prand := rfl
@[simp] theorem clearFlags_micIn (f : BitVec 3) (s : State) : (clearFlags f s).micIn = s.micIn := rfl
@[simp] theorem clearFlags_result0 (f : BitVec 3) (s : State) : (clearFlags f s).result0 = s.result0 := rfl
@[simp] theorem clearFlags_result1 (f : BitVec 3) (s : State) : (clearFlags f s).result1 = s.result1 := rfl
@[simp] theorem clearFlags_result2 (f : BitVec 3) (s : State) : (clearFlags f s).result2 = s.result2 := rfl
@[simp] theorem clearFlags_mem (f : BitVec 3) (s : State) : (clearFlags f s).mem = s.mem := rfl
@[simp] theorem clearFlags_hosts (f : BitVec 3) (s : State) : (clearFlags f s).hosts = s.hosts := rfl
@[simp] theorem clearFlags_sched (f : BitVec 3) (s : State) : (clearFlags f s).sched = s.sched := rfl

/-! ### finish -/

@[simp] theorem finish_phase (r0 r1 : Block) (r2 : Byte) (o : List Byte) (s : State) : (finish r0 r1 r2 o s).phase = .idle := rfl
@[simp] theorem finish_cmdl (r0 r1 : Block) (r2 : Byte) (o : List Byte) (s : State) : (finish r0 r1 r2 o s).cmdl = s.cmdl := rfl
@[simp] theorem finish_done (r0 r1 : Block) (r2 : Byte) (o : List Byte) (s : State) : (finish r0 r1 r2 o s).done = true := rfl
@[simp] theorem finish_err (r0 r1 : Block) (r2 : Byte) (o : List Byte) (s : State) : (finish r0 r1 r2 o s).err = false := rfl
@[simp] theorem finish_errcode (r0 r1 : Block) (r2 : Byte) (o : List Byte) (s : State) : (finish r0 r1 r2 o s).errcode = 0 := rfl
@[simp] theorem finish_lastop (r0 r1 : Block) (r2 : Byte) (o : List Byte) (s : State) : (finish r0 r1 r2 o s).lastop = s.lastop := rfl
@[simp] theorem finish_inten (r0 r1 : Block) (r2 : Byte) (o : List Byte) (s : State) : (finish r0 r1 r2 o s).inten = s.inten := rfl
@[simp] theorem finish_intflag (r0 r1 : Block) (r2 : Byte) (o : List Byte) (s : State) : (finish r0 r1 r2 o s).intflag = s.intflag ||| doneIF := rfl
@[simp] theorem finish_lenA (r0 r1 : Block) (r2 : Byte) (o : List Byte) (s : State) : (finish r0 r1 r2 o s).lenA = 0 := rfl
@[simp] theorem finish_lenB (r0 r1 : Block) (r2 : Byte) (o : List Byte) (s : State) : (finish r0 r1 r2 o s).lenB = 0 := rfl
@[simp] theorem finish_ivindex (r0 r1 : Block) (r2 : Byte) (o : List Byte) (s : State) : (finish r0 r1 r2 o s).ivindex = 0 := rfl
@[simp] theorem finish_key (r0 r1 : Block) (r2 : Byte) (o : List Byte) (s : State) : (finish r0 r1 r2 o s).key = zeroBlock := rfl
@[simp] theorem finish_nonce (r0 r1 : Block) (r2 : Byte) (o : List Byte) (s : State) : (finish r0 r1 r2 o s).nonce = Vector.replicate 13 0 := rfl
@[simp] theorem finish_prand (r0 r1 : Block) (r2 : Byte) (o : List Byte) (s : State) : (finish r0 r1 r2 o s).prand = Vector.replicate 7 0 := rfl
@[simp] theorem finish_micIn (r0 r1 : Block) (r2 : Byte) (o : List Byte) (s : State) : (finish r0 r1 r2 o s).micIn = Vector.replicate 8 0 := rfl
@[simp] theorem finish_result0 (r0 r1 : Block) (r2 : Byte) (o : List Byte) (s : State) : (finish r0 r1 r2 o s).result0 = r0 := rfl
@[simp] theorem finish_result1 (r0 r1 : Block) (r2 : Byte) (o : List Byte) (s : State) : (finish r0 r1 r2 o s).result1 = r1 := rfl
@[simp] theorem finish_result2 (r0 r1 : Block) (r2 : Byte) (o : List Byte) (s : State) : (finish r0 r1 r2 o s).result2 = r2 := rfl
@[simp] theorem finish_mem (r0 r1 : Block) (r2 : Byte) (o : List Byte) (s : State) : (finish r0 r1 r2 o s).mem = Memory.clear (Memory.store s.mem bufOBase o) 0x400 0xC00 := rfl
@[simp] theorem finish_hosts (r0 r1 : Block) (r2 : Byte) (o : List Byte) (s : State) : (finish r0 r1 r2 o s).hosts = s.hosts := rfl
@[simp] theorem finish_sched (r0 r1 : Block) (r2 : Byte) (o : List Byte) (s : State) : (finish r0 r1 r2 o s).sched = s.sched := rfl

/-! ### takeError -/

@[simp] theorem takeError_phase (c : ErrCode) (s : State) : (takeError c s).phase = .idle := rfl
@[simp] theorem takeError_cmdl (c : ErrCode) (s : State) : (takeError c s).cmdl = s.cmdl := rfl
@[simp] theorem takeError_done (c : ErrCode) (s : State) : (takeError c s).done = false := rfl
@[simp] theorem takeError_err (c : ErrCode) (s : State) : (takeError c s).err = true := rfl
@[simp] theorem takeError_errcode (c : ErrCode) (s : State) : (takeError c s).errcode = c.code := rfl
@[simp] theorem takeError_lastop (c : ErrCode) (s : State) : (takeError c s).lastop = s.lastop := rfl
@[simp] theorem takeError_inten (c : ErrCode) (s : State) : (takeError c s).inten = s.inten := rfl
@[simp] theorem takeError_intflag (c : ErrCode) (s : State) : (takeError c s).intflag = s.intflag ||| errIF := rfl
@[simp] theorem takeError_lenA (c : ErrCode) (s : State) : (takeError c s).lenA = 0 := rfl
@[simp] theorem takeError_lenB (c : ErrCode) (s : State) : (takeError c s).lenB = 0 := rfl
@[simp] theorem takeError_ivindex (c : ErrCode) (s : State) : (takeError c s).ivindex = 0 := rfl
@[simp] theorem takeError_key (c : ErrCode) (s : State) : (takeError c s).key = zeroBlock := rfl
@[simp] theorem takeError_nonce (c : ErrCode) (s : State) : (takeError c s).nonce = Vector.replicate 13 0 := rfl
@[simp] theorem takeError_prand (c : ErrCode) (s : State) : (takeError c s).prand = Vector.replicate 7 0 := rfl
@[simp] theorem takeError_micIn (c : ErrCode) (s : State) : (takeError c s).micIn = Vector.replicate 8 0 := rfl
@[simp] theorem takeError_result0 (c : ErrCode) (s : State) : (takeError c s).result0 = s.result0 := rfl
@[simp] theorem takeError_result1 (c : ErrCode) (s : State) : (takeError c s).result1 = s.result1 := rfl
@[simp] theorem takeError_result2 (c : ErrCode) (s : State) : (takeError c s).result2 = s.result2 := rfl
@[simp] theorem takeError_mem (c : ErrCode) (s : State) : (takeError c s).mem = Memory.clear s.mem 0x400 0xC00 := rfl
@[simp] theorem takeError_hosts (c : ErrCode) (s : State) : (takeError c s).hosts = s.hosts := rfl
@[simp] theorem takeError_sched (c : ErrCode) (s : State) : (takeError c s).sched = s.sched := rfl

/-! ### resetCore -/

@[simp] theorem resetCore_phase (s : State) : (resetCore s).phase = State.reset.phase := rfl
@[simp] theorem resetCore_cmdl (s : State) : (resetCore s).cmdl = State.reset.cmdl := rfl
@[simp] theorem resetCore_done (s : State) : (resetCore s).done = State.reset.done := rfl
@[simp] theorem resetCore_err (s : State) : (resetCore s).err = State.reset.err := rfl
@[simp] theorem resetCore_errcode (s : State) : (resetCore s).errcode = State.reset.errcode := rfl
@[simp] theorem resetCore_lastop (s : State) : (resetCore s).lastop = State.reset.lastop := rfl
@[simp] theorem resetCore_inten (s : State) : (resetCore s).inten = State.reset.inten := rfl
@[simp] theorem resetCore_intflag (s : State) : (resetCore s).intflag = State.reset.intflag := rfl
@[simp] theorem resetCore_lenA (s : State) : (resetCore s).lenA = State.reset.lenA := rfl
@[simp] theorem resetCore_lenB (s : State) : (resetCore s).lenB = State.reset.lenB := rfl
@[simp] theorem resetCore_ivindex (s : State) : (resetCore s).ivindex = State.reset.ivindex := rfl
@[simp] theorem resetCore_key (s : State) : (resetCore s).key = State.reset.key := rfl
@[simp] theorem resetCore_nonce (s : State) : (resetCore s).nonce = State.reset.nonce := rfl
@[simp] theorem resetCore_prand (s : State) : (resetCore s).prand = State.reset.prand := rfl
@[simp] theorem resetCore_micIn (s : State) : (resetCore s).micIn = State.reset.micIn := rfl
@[simp] theorem resetCore_result0 (s : State) : (resetCore s).result0 = State.reset.result0 := rfl
@[simp] theorem resetCore_result1 (s : State) : (resetCore s).result1 = State.reset.result1 := rfl
@[simp] theorem resetCore_result2 (s : State) : (resetCore s).result2 = State.reset.result2 := rfl
@[simp] theorem resetCore_mem (s : State) : (resetCore s).mem = State.reset.mem := rfl
@[simp] theorem resetCore_hosts (s : State) : (resetCore s).hosts = s.hosts := rfl
@[simp] theorem resetCore_sched (s : State) : (resetCore s).sched = s.sched := rfl

end Sys2Proof.Machine
end

