-- ==== Sys2Proof/Laws/Ops.lean ====
section
/-! SUPPORT. What each shared operation can do, said once: a completion, an acceptance, a bus access. -/

namespace Sys2Proof.Machine

/-! ### The address map -/

/-- The row of an offset of the register space holds it. -/
theorem rowOf_some {off : Nat} (h : off < 0x1000) : ∃ r, rowOf off = some r := by
  refine Option.ne_none_iff_exists'.1 fun hn => ?_
  simp only [rowOf, List.find?_eq_none, addressMap, List.forall_mem_cons, Bool.and_eq_true, decide_eq_true_eq] at hn
  omega

theorem rowOf_bounds {off : Nat} {r : MapRow} (h : rowOf off = some r) : r ∈ addressMap ∧ r.first ≤ off ∧ off ≤ r.last := by
  refine ⟨List.mem_of_find?_eq_some h, ?_⟩
  have := List.find?_some h
  simpa using this

/-- The class of an offset is the one R79 gives by ranges. -/
theorem rowOf_class {off : Nat} {r : MapRow} (h : rowOf off = some r) :
    (r.cls = .input ↔ InputOffset off) ∧ (r.cls = .output ↔ OutputOffset off) := by
  obtain ⟨hm, h1, h2⟩ := rowOf_bounds h
  simp only [InputOffset, OutputOffset]
  fin_cases hm <;> simp at h1 h2 ⊢ <;> omega

/-! ### Busy and the phase -/

theorem busy_iff (s : State) : s.busy = true ↔ s.phase = .busy := by simp [State.busy]

theorem busy_eq_false_iff (s : State) : s.busy = false ↔ s.phase = .idle := by
  cases h : s.phase <;> simp [State.busy, h]

/-! ### The scrub and the two completions -/

theorem get_scrubbed {m : List Host.Cell} {i : Nat} (h : i < 1024) :
    Memory.get (Memory.clear m 0x400 0xC00) (0x400 + i) = 0 ∧ Memory.get (Memory.clear m 0x400 0xC00) (0x800 + i) = 0 :=
  ⟨Memory.get_clear_in _ (by omega) (by omega), Memory.get_clear_in _ (by omega) (by omega)⟩

theorem inputsZero_scrub (s : State) : InputsZero (scrub s) :=
  ⟨rfl, rfl, rfl, rfl, rfl, rfl, rfl, fun _ h => (get_scrubbed h).1, fun _ h => (get_scrubbed h).2⟩

theorem inputsZero_finish (r0 r1 : Block) (r2 : Byte) (o : List Byte) (s : State) : InputsZero (finish r0 r1 r2 o s) :=
  ⟨rfl, rfl, rfl, rfl, rfl, rfl, rfl, fun _ h => (get_scrubbed h).1, fun _ h => (get_scrubbed h).2⟩

theorem inputsZero_takeError (c : ErrCode) (s : State) : InputsZero (takeError c s) :=
  ⟨rfl, rfl, rfl, rfl, rfl, rfl, rfl, fun _ h => (get_scrubbed h).1, fun _ h => (get_scrubbed h).2⟩

/-- BUF_O is outside the scrub. -/
theorem get_bufO_scrubbed (m : List Host.Cell) (i : Nat) :
    Memory.get (Memory.clear m 0x400 0xC00) (0xC00 + i) = Memory.get m (0xC00 + i) :=
  Memory.get_clear_out _ (by omega)

/-- Everything a successful completion does (R113, R114). -/
theorem succeeded_finish {s : State} (h : Memory.wf s.mem = true) (r0 r1 : Block) (r2 : Byte) (o : List Byte) :
    Succeeded s (finish r0 r1 r2 o s) r0 r1 r2 o where
  phase := rfl
  result0 := rfl
  result1 := rfl
  result2 := rfl
  bufO i hi := by rw [finish_mem, get_bufO_scrubbed]; exact Memory.get_store_in h bufOBase o hi
  bufORest i hi := by
    rw [finish_mem, get_bufO_scrubbed]
    exact Memory.get_store_out _ _ _ (.inr (Nat.add_le_add_left hi _))
  done := rfl
  err := rfl
  errcode := rfl
  lastop := rfl
  intflag := rfl
  inten := rfl
  scrubbed := inputsZero_finish r0 r1 r2 o s

/-- Everything a failed completion does (R270, R114). -/
theorem failed_takeError (s : State) (c : ErrCode) : Failed s (takeError c s) c.code where
  phase := rfl
  result0 := rfl
  result1 := rfl
  result2 := rfl
  bufO _ := get_bufO_scrubbed _ _
  done := rfl
  err := rfl
  errcode := rfl
  lastop := rfl
  intflag := rfl
  inten := rfl
  scrubbed := inputsZero_takeError c s

/-- A completion is one of the two. -/
theorem complete_cases (r : CmdResult) (s : State) :
    (∃ r0 r1 r2 o, r = .ok r0 r1 r2 o ∧ complete r s = finish r0 r1 r2 o s) ∨
      (∃ c, r = .error c ∧ complete r s = takeError c s) := by
  cases r with
  | ok r0 r1 r2 o => exact .inl ⟨r0, r1, r2, o, rfl, rfl⟩
  | error c => exact .inr ⟨c, rfl, rfl⟩

/-! ### Acceptance -/

theorem get_bufO_accept (w : Word) (s : State) {i : Nat} (h : i < 1024) : Memory.get (accept w s).mem (0xC00 + i) = 0 :=
  Memory.get_clear_in _ (by omega) (by omega)

theorem outputsZero_accept (w : Word) (s : State) : OutputsZero (accept w s) :=
  ⟨rfl, rfl, rfl, fun _ h => get_bufO_accept w s h⟩

/-- Acceptance leaves every byte below BUF_O alone (R111). -/
theorem get_input_accept (w : Word) (s : State) {a : Nat} (h : a < 0xC00) :
    Memory.get (accept w s).mem a = Memory.get s.mem a :=
  Memory.get_clear_out _ (by omega)

theorem cmdWrite_busy {s : State} (h : s.phase = .busy) (w : Word) : cmdWrite w s = overrun s := by
  simp [cmdWrite, State.busy, h]

theorem cmdWrite_idle {s : State} (h : s.phase = .idle) (w : Word) : cmdWrite w s = accept w s := by
  simp [cmdWrite, State.busy, h]

/-! ### Bus accesses -/

/-- The bus refuses exactly the accesses R72 and R77 forbid. -/
theorem accessRefused_eq (a : Access) : accessRefused a = !a.wellFormed := by
  cases a with
  | read off n =>
    by_cases h : n = 1 ∨ n = 2 ∨ n = 4
    · rcases h with rfl | rfl | rfl <;>
        simp [accessRefused, Access.wellFormed, Access.narrowCmdWrite, Access.offset, Access.width, Config.spaceBytes,
          Nat.mod_one, bne] <;> grind
    · simp [accessRefused, Access.wellFormed, Access.narrowCmdWrite, Access.offset, Access.width, h]
      grind
  | write off n v =>
    by_cases h : n = 1 ∨ n = 2 ∨ n = 4
    · rcases h with rfl | rfl | rfl <;>
        simp [accessRefused, Access.wellFormed, Access.narrowCmdWrite, Access.offset, Access.width, Config.spaceBytes,
          Nat.mod_one, bne] <;> grind
    · simp [accessRefused, Access.wellFormed, Access.narrowCmdWrite, Access.offset, Access.width, h]
      grind

theorem busAccess_refused {a : Access} (h : a.wellFormed = false) (s : State) :
    busAccess a s = (s, .fault .busError) := by
  simp [busAccess, accessRefused_eq, h]

theorem busAccess_read {off n : Nat} (h : (Access.read off n).wellFormed = true) (s : State) :
    busAccess (.read off n) s = (s, .data (readBytes s off n)) := by
  simp [busAccess, accessRefused_eq, h]

theorem busAccess_write {off n : Nat} {v : Word} (h : (Access.write off n v).wellFormed = true) (s : State) :
    busAccess (.write off n v) s = (deliverWrite off n v s, .written) := by
  simp [busAccess, accessRefused_eq, h]

/-- What is known of a legal access: its width, its alignment, its end, and that a write at CMD is 4 bytes wide. -/
theorem wellFormed_bounds {a : Access} (h : a.wellFormed = true) :
    (a.width = 1 ∨ a.width = 2 ∨ a.width = 4) ∧ a.offset % a.width = 0 ∧ a.offset + a.width ≤ 0x1000 := by
  simp only [Access.wellFormed, Bool.and_eq_true, decide_eq_true_eq] at h
  exact h.1

/-- A legal write that does not start at CMD touches no byte of CMD. -/
theorem wellFormed_not_cmd {off n : Nat} {v : Word} (h : (Access.write off n v).wellFormed = true) (h4 : off ≠ 4) :
    ∀ i < n, off + i < 4 ∨ 7 < off + i := by
  have hb := wellFormed_bounds h
  simp only [Access.wellFormed, Access.narrowCmdWrite, Bool.and_eq_true, Bool.not_eq_true', decide_eq_false_iff_not] at h
  simp only [Access.width, Access.offset] at hb
  intro i hi
  obtain ⟨hn, hal, -⟩ := hb
  have h2 := h.2
  rcases hn with rfl | rfl | rfl <;> omega

/-- Writing one byte: what R71, R78 and R80 give, by the offset's row. -/
theorem writeByte_cases {off : Nat} {r : MapRow} (h : rowOf off = some r) (b : Byte) (s : State) :
    (InputOffset off ∧ s.phase = .busy ∧ writeByte off b s = overrun s) ∨
      (¬(InputOffset off ∧ s.phase = .busy) ∧ writeByte off b s = putByte r.contents (off - r.first) b s) := by
  have hc := (rowOf_class h).1
  by_cases hb : InputOffset off ∧ s.phase = .busy
  · exact .inl ⟨hb.1, hb.2, by simp [writeByte, h, hc.2 hb.1, State.busy, hb.2]⟩
  · refine .inr ⟨hb, ?_⟩
    have : ¬(r.cls = .input ∧ s.busy = true) := by rw [hc, busy_iff]; exact hb
    simp only [writeByte, h, this, if_false]

/-- Reading one byte: 0 for an output byte while BUSY (R81), the stored byte otherwise. -/
theorem readByte_cases {off : Nat} {r : MapRow} (h : rowOf off = some r) (s : State) :
    readByte s off = if OutputOffset off ∧ s.phase = .busy then 0 else storedByte s r.contents (off - r.first) := by
  have hc := (rowOf_class h).2
  simp only [readByte, h, hc, busy_iff]

/-! ### What no byte write changes -/

@[simp] theorem putByte_phase (c : Contents) (i : Nat) (b : Byte) (s : State) : (putByte c i b s).phase = s.phase := by
  cases c <;> rfl
@[simp] theorem putByte_cmdl (c : Contents) (i : Nat) (b : Byte) (s : State) : (putByte c i b s).cmdl = s.cmdl := by
  cases c <;> rfl
@[simp] theorem putByte_done (c : Contents) (i : Nat) (b : Byte) (s : State) : (putByte c i b s).done = s.done := by
  cases c <;> rfl
@[simp] theorem putByte_err (c : Contents) (i : Nat) (b : Byte) (s : State) : (putByte c i b s).err = s.err := by
  cases c <;> rfl
@[simp] theorem putByte_errcode (c : Contents) (i : Nat) (b : Byte) (s : State) : (putByte c i b s).errcode = s.errcode := by
  cases c <;> rfl
@[simp] theorem putByte_lastop (c : Contents) (i : Nat) (b : Byte) (s : State) : (putByte c i b s).lastop = s.lastop := by
  cases c <;> rfl
@[simp] theorem putByte_result0 (c : Contents) (i : Nat) (b : Byte) (s : State) : (putByte c i b s).result0 = s.result0 := by
  cases c <;> rfl
@[simp] theorem putByte_result1 (c : Contents) (i : Nat) (b : Byte) (s : State) : (putByte c i b s).result1 = s.result1 := by
  cases c <;> rfl
@[simp] theorem putByte_result2 (c : Contents) (i : Nat) (b : Byte) (s : State) : (putByte c i b s).result2 = s.result2 := by
  cases c <;> rfl
@[simp] theorem putByte_hosts (c : Contents) (i : Nat) (b : Byte) (s : State) : (putByte c i b s).hosts = s.hosts := by
  cases c <;> rfl
@[simp] theorem putByte_sched (c : Contents) (i : Nat) (b : Byte) (s : State) : (putByte c i b s).sched = s.sched := by
  cases c <;> rfl

/-- The fields no host write other than an accepted command changes. -/
structure SameCore (s t : State) : Prop where
  phase : t.phase = s.phase
  cmdl : t.cmdl = s.cmdl
  done : t.done = s.done
  err : t.err = s.err
  errcode : t.errcode = s.errcode
  lastop : t.lastop = s.lastop
  result0 : t.result0 = s.result0
  result1 : t.result1 = s.result1
  result2 : t.result2 = s.result2
  hosts : t.hosts = s.hosts
  sched : t.sched = s.sched

theorem SameCore.refl (s : State) : SameCore s s := ⟨rfl, rfl, rfl, rfl, rfl, rfl, rfl, rfl, rfl, rfl, rfl⟩

theorem SameCore.trans {s t u : State} (h : SameCore s t) (k : SameCore t u) : SameCore s u :=
  ⟨k.phase.trans h.phase, k.cmdl.trans h.cmdl, k.done.trans h.done, k.err.trans h.err, k.errcode.trans h.errcode,
    k.lastop.trans h.lastop, k.result0.trans h.result0, k.result1.trans h.result1, k.result2.trans h.result2,
    k.hosts.trans h.hosts, k.sched.trans h.sched⟩

theorem sameCore_writeByte (off : Nat) (b : Byte) (s : State) : SameCore s (writeByte off b s) := by
  cases h : rowOf off with
  | none => simp only [writeByte, h]; exact .refl s
  | some r =>
    rcases writeByte_cases h b s with ⟨-, -, he⟩ | ⟨-, he⟩ <;> rw [he]
    · exact ⟨rfl, rfl, rfl, rfl, rfl, rfl, rfl, rfl, rfl, rfl, rfl⟩
    · exact ⟨by simp, by simp, by simp, by simp, by simp, by simp, by simp, by simp, by simp, by simp, by simp⟩

theorem sameCore_writeBytes (off : Nat) (v : Word) (n : Nat) (s : State) : SameCore s (writeBytes off v n s) := by
  induction n with
  | zero => exact .refl s
  | succ n ih => exact ih.trans (sameCore_writeByte ..)

/-- A property every byte write keeps, every write other than to CMD keeps. -/
theorem writeBytes_induct {P : State → Prop} {off n : Nat} (v : Word)
    (hstep : ∀ i < n, ∀ b s, P s → P (writeByte (off + i) b s)) {s : State} (h : P s) : P (writeBytes off v n s) := by
  induction n with
  | zero => exact h
  | succ n ih => exact hstep n (Nat.lt_succ_self n) _ _ (ih fun i hi => hstep i (Nat.lt_succ_of_lt hi))

/-- A property kept by acceptance, by an overrun and by every byte write is kept by every bus access. -/
theorem busAccess_induct {P : State → Prop} (hacc : ∀ w s, s.phase = .idle → P s → P (accept w s))
    (hovr : ∀ s, P s → P (overrun s)) (hbyte : ∀ off < 0x1000, ∀ b s, P s → P (writeByte off b s)) (a : Access) {s : State}
    (h : P s) : P (busAccess a s).1 := by
  by_cases hw : a.wellFormed = true
  · have hb := wellFormed_bounds hw
    cases a with
    | read off n => rw [busAccess_read hw]; exact h
    | write off n v =>
      rw [busAccess_write hw]
      simp only [deliverWrite]
      split
      · simp only [cmdWrite]
        split
        · exact hovr s h
        · exact hacc v s ((busy_eq_false_iff s).1 (by simpa using ‹¬s.busy = true›)) h
      · refine writeBytes_induct v (fun i hi b t ht => hbyte _ ?_ b t ht) h
        simp only [Access.width, Access.offset] at hb
        omega
  · rw [busAccess_refused (by simpa using hw)]; exact h

end Sys2Proof.Machine
end

