-- ==== Sys2Proof/Laws/Access.lean ====
section
/-! SUPPORT. Bus accesses by the row of their offset: what a one-byte access and a whole-register access do, and that every
access keeps memory in canonical form. -/

namespace Sys2Proof.Machine

/-! ### Rows -/

/-- Two rows of R71 are one or lie apart. -/
theorem addressMap_disjoint : ∀ r ∈ addressMap, ∀ q ∈ addressMap, r = q ∨ r.last < q.first ∨ q.last < r.first := by
  decide +kernel

theorem rowOf_unique {off : Nat} {r q : MapRow} (h : rowOf off = some r) (hq : q ∈ addressMap)
    (hb : q.first ≤ off ∧ off ≤ q.last) : r = q := by
  obtain ⟨hm, h1, h2⟩ := rowOf_bounds h
  rcases addressMap_disjoint r hm q hq with h | h | h
  · exact h
  · omega
  · omega

/-- The row of an offset is the one that holds it. -/
theorem rowOf_is {off : Nat} {q : MapRow} (hq : q ∈ addressMap) (hb : q.first ≤ off ∧ off ≤ q.last) :
    rowOf off = some q := by
  have h : off < 0x1000 := by fin_cases hq <;> simp at hb <;> omega
  obtain ⟨r, hr⟩ := rowOf_some h
  rw [hr, rowOf_unique hr hq hb]

/-- A byte write outside the busy window of R80 stores the byte. -/
theorem writeByte_row {q : MapRow} (hq : q ∈ addressMap) {off : Nat} (hb : q.first ≤ off ∧ off ≤ q.last) (b : Byte)
    (s : State) (hc : q.cls ≠ .input ∨ s.phase = .idle) : writeByte off b s = putByte q.contents (off - q.first) b s := by
  have h : ¬(q.cls = .input ∧ s.busy = true) := by
    rw [busy_iff]
    rintro ⟨h1, h2⟩
    rcases hc with hc | hc
    · exact hc h1
    · rw [hc] at h2; cases h2
  simp only [writeByte, rowOf_is hq hb, h, if_false]

/-- A byte read outside the busy window of R81 returns the stored byte. -/
theorem readByte_row {q : MapRow} (hq : q ∈ addressMap) {off : Nat} (hb : q.first ≤ off ∧ off ≤ q.last) (s : State)
    (hc : q.cls ≠ .output ∨ s.phase = .idle) : readByte s off = storedByte s q.contents (off - q.first) := by
  have h : ¬(q.cls = .output ∧ s.busy = true) := by
    rw [busy_iff]
    rintro ⟨h1, h2⟩
    rcases hc with hc | hc
    · exact hc h1
    · rw [hc] at h2; cases h2
  simp only [readByte, rowOf_is hq hb, h, if_false]

/-! ### One-byte accesses -/

theorem wellFormed_write1 {off : Nat} (v : Word) (h : off < 0x1000) (h4 : off < 4 ∨ 7 < off) :
    (Access.write off 1 v).wellFormed = true := by
  simp [Access.wellFormed, Access.width, Access.offset, Access.narrowCmdWrite, Nat.mod_one]; omega

theorem wellFormed_read1 {off : Nat} (h : off < 0x1000) : (Access.read off 1).wellFormed = true := by
  simp [Access.wellFormed, Access.width, Access.offset, Access.narrowCmdWrite, Nat.mod_one]; omega

/-- A legal write that does not start at CMD is its bytes. -/
theorem busAccess_write_bytes {off n : Nat} {v : Word} {s : State} (hw : (Access.write off n v).wellFormed = true)
    (h4 : off ≠ 4) : busAccess (.write off n v) s = (writeBytes off v n s, .written) := by
  rw [busAccess_write hw, deliverWrite, if_neg h4]

theorem busAccess_write1 {off : Nat} (v : Word) (s : State) (h : off < 0x1000) (h4 : off < 4 ∨ 7 < off) :
    busAccess (.write off 1 v) s = (writeByte off (laneOf v 0) s, .written) := by
  rw [busAccess_write_bytes (wellFormed_write1 v h h4) (by omega)]
  rfl

theorem setLane_zero (b : Byte) : setLane 0 0 b = b.setWidth 32 := by simp [setLane]

theorem laneOf_setWidth (b : Byte) : laneOf (b.setWidth 32) 0 = b := by
  apply BitVec.eq_of_getLsbD_eq
  intro i hi
  interval_cases i <;> simp [laneOf]

theorem busAccess_read1 {off : Nat} (s : State) (h : off < 0x1000) :
    busAccess (.read off 1) s = (s, .data ((readByte s off).setWidth 32)) := by
  rw [busAccess_read (wellFormed_read1 h)]
  simp only [readBytes, Nat.add_zero]
  rw [setLane_zero]

/-! ### Whole words -/

/-- Lane i of a read of n bytes is byte i; the lanes above are zero (R73). -/
theorem laneOf_readBytes (s : State) (off : Nat) {n : Nat} (hn : n ≤ 4) {i : Nat} (hi : i < 4) :
    laneOf (readBytes s off n) i = if i < n then readByte s (off + i) else 0 := by
  induction n with
  | zero => simp [readBytes, laneOf]
  | succ n ih =>
    rw [readBytes]
    by_cases h : n = i
    · subst h; rw [laneOf_setLane_eq _ hi]; simp
    · rw [laneOf_setLane_ne _ (by omega) hi h, ih (by omega)]
      by_cases h2 : i < n
      · simp [h2]; intro h; omega
      · have h3 : ¬i < n + 1 := by omega
        simp [h2, h3]

theorem readBytes_zero {s : State} {off n : Nat} (h : ∀ i < n, readByte s (off + i) = 0) : readBytes s off n = 0 := by
  induction n with
  | zero => rfl
  | succ n ih =>
    rw [readBytes, ih fun i hi => h i (by omega), h n (by omega)]
    simp [setLane]

theorem readBytes_word {s : State} {off : Nat} {v : Word} (h : ∀ i < 4, readByte s (off + i) = laneOf v i) :
    readBytes s off 4 = v :=
  word_ext_lanes fun i hi => by rw [laneOf_readBytes s off le_rfl hi, if_pos hi, h i hi]

/-- A 32-bit read of an integer register of the control or input class returns the word its bytes make (R75). -/
theorem busAccess_read_register {q : MapRow} (hq : q ∈ addressMap) (hl : q.last = q.first + 3) (s : State)
    (hc : q.cls ≠ .output) (hal : q.first % 4 = 0) {v : Word} (h : ∀ i < 4, storedByte s q.contents i = laneOf v i) :
    busAccess (.read q.first 4) s = (s, .data v) := by
  have hle : q.first + 4 ≤ 0x1000 := by fin_cases hq <;> simp at hal ⊢
  have hw : (Access.read q.first 4).wellFormed = true := by
    simp [Access.wellFormed, Access.width, Access.offset, Access.narrowCmdWrite, hal]; omega
  rw [busAccess_read hw, readBytes_word (v := v)]
  intro i hi
  rw [readByte_row hq (by omega) s (.inl hc), Nat.add_sub_cancel_left, h i hi]

theorem writeBytes_id {off n : Nat} (v : Word) {s : State} (h : ∀ i < n, ∀ b, writeByte (off + i) b s = s) :
    writeBytes off v n s = s := by
  induction n with
  | zero => rfl
  | succ n ih => rw [writeBytes, ih fun i hi => h i (by omega), h n (by omega)]

/-- A legal access that starts in the input class, or in the output class, lies in it (R79). -/
theorem class_of_access {a : Access} (hw : a.wellFormed = true) :
    (InputOffset a.offset → ∀ i < a.width, InputOffset (a.offset + i)) ∧
      (OutputOffset a.offset → ∀ i < a.width, OutputOffset (a.offset + i)) := by
  obtain ⟨hn, hal, hle⟩ := wellFormed_bounds hw
  simp only [InputOffset, OutputOffset]
  generalize a.width = n at *
  generalize a.offset = off at *
  constructor <;> intro h i hi <;> rcases hn with rfl | rfl | rfl <;> omega

/-! ### The busy window -/

/-- While BUSY a byte write changes nothing but INTEN and INTFLAG (R80, R81). -/
theorem writeByte_busy {s : State} (h : s.phase = .busy) (off : Nat) (b : Byte) :
    ∃ e f, writeByte off b s = { s with inten := e, intflag := f } := by
  cases hr : rowOf off with
  | none => exact ⟨s.inten, s.intflag, by simp only [writeByte, hr]⟩
  | some r =>
    obtain ⟨hm, h1, h2⟩ := rowOf_bounds hr
    rcases writeByte_cases hr b s with ⟨-, -, he⟩ | ⟨hn, he⟩
    · exact ⟨_, _, he⟩
    · rw [he]
      have hc : r.cls ≠ .input := fun hi => hn ⟨(rowOf_class hr).1.1 hi, h⟩
      fin_cases hm <;> first | exact absurd rfl hc | exact ⟨_, _, rfl⟩

/-- While BUSY every bus access changes nothing but INTEN and INTFLAG (R80, R81, R116). -/
theorem busAccess_busy {s : State} (h : s.phase = .busy) (a : Access) :
    ∃ e f, (busAccess a s).1 = { s with inten := e, intflag := f } := by
  refine busAccess_induct (P := fun t => ∃ e f, t = { s with inten := e, intflag := f }) ?_ ?_ ?_ a ⟨s.inten, s.intflag, rfl⟩
  · rintro w t hi ⟨e, f, rfl⟩
    have hb : s.phase = .idle := hi
    rw [h] at hb
    cases hb
  · rintro t ⟨e, f, rfl⟩
    exact ⟨_, _, rfl⟩
  · rintro off - b t ⟨e, f, rfl⟩
    obtain ⟨e', f', he⟩ := writeByte_busy (s := { s with inten := e, intflag := f }) h off b
    exact ⟨e', f', he⟩

/-! ### Memory -/

/-- Storing a byte changes memory only for BUF_A and BUF_B. -/
theorem putByte_mem (c : Contents) (i : Nat) (b : Byte) (s : State) :
    (putByte c i b s).mem = s.mem ∨ (c = .bufA ∧ (putByte c i b s).mem = Memory.set s.mem (0x400 + i) b) ∨
      (c = .bufB ∧ (putByte c i b s).mem = Memory.set s.mem (0x800 + i) b) := by
  cases c <;> simp [putByte, bufABase, bufBBase]

theorem writeByte_mem (off : Nat) (b : Byte) (s : State) :
    (writeByte off b s).mem = s.mem ∨ (0x400 ≤ off ∧ off < 0xC00 ∧ s.phase = .idle ∧
      (writeByte off b s).mem = Memory.set s.mem off b) := by
  cases hr : rowOf off with
  | none => exact .inl (by simp only [writeByte, hr])
  | some r =>
    obtain ⟨hm, h1, h2⟩ := rowOf_bounds hr
    rcases writeByte_cases hr b s with ⟨-, -, he⟩ | ⟨hn, he⟩ <;> rw [he]
    · exact .inl rfl
    · have idle : InputOffset off → s.phase = .idle := fun hi => by
        cases hp : s.phase with
        | idle => rfl
        | busy => exact absurd ⟨hi, hp⟩ hn
      rcases putByte_mem r.contents (off - r.first) b s with hq | ⟨hc, hq⟩ | ⟨hc, hq⟩
      · exact .inl hq
      · have hb : r.first = 0x400 ∧ r.last = 0x7FF := by fin_cases hm <;> simp_all
        refine .inr ⟨by omega, by omega, idle (by simp only [InputOffset]; omega), ?_⟩
        rw [hq]; congr 1; omega
      · have hb : r.first = 0x800 ∧ r.last = 0xBFF := by fin_cases hm <;> simp_all
        refine .inr ⟨by omega, by omega, idle (by simp only [InputOffset]; omega), ?_⟩
        rw [hq]; congr 1; omega

theorem wf_writeByte {s : State} (h : Memory.wf s.mem = true) (off : Nat) (b : Byte) :
    Memory.wf (writeByte off b s).mem = true := by
  rcases writeByte_mem off b s with he | ⟨-, -, -, he⟩ <;> rw [he]
  · exact h
  · exact Memory.wf_set h _ _

theorem wf_accept {s : State} (h : Memory.wf s.mem = true) (w : Word) : Memory.wf (accept w s).mem = true :=
  Memory.wf_clear h _ _

theorem wf_complete {s : State} (h : Memory.wf s.mem = true) (r : CmdResult) : Memory.wf (complete r s).mem = true := by
  rcases complete_cases r s with ⟨r0, r1, r2, o, -, he⟩ | ⟨c, -, he⟩ <;> rw [he]
  · exact Memory.wf_clear (Memory.wf_store h _ _) _ _
  · exact Memory.wf_clear h _ _

theorem wf_busAccess {s : State} (h : Memory.wf s.mem = true) (a : Access) : Memory.wf (busAccess a s).1.mem = true :=
  busAccess_induct (P := fun t => Memory.wf t.mem = true) (fun w _ _ ht => wf_accept ht w) (fun _ ht => ht)
    (fun off _ b _ ht => wf_writeByte ht off b) a h

theorem reset_mem_wf : Memory.wf State.reset.mem = true := rfl

end Sys2Proof.Machine
end

