-- ==== Sys2Proof/Laws/Decode.lean ====
section
/-! SUPPORT. The masks of the opcode map, as equations on the whole word, and the fields of a word as numbers. -/

namespace Sys2Proof

/-- A row with the full mask matches its pattern alone. -/
theorem and_fullMask_eq (w p : Word) : w &&& 0xFFFFFFFF = p ↔ w = p := by
  have h : (0xFFFFFFFF : Word) = BitVec.allOnes 32 := rfl
  rw [h, BitVec.and_allOnes]

/-- A CCM row matches its two words, M8 = 0 and M8 = 1 (R101). -/
theorem and_ccmMask_eq (w : Word) {p q : Word} (h : (p = 0x004 ∧ q = 0x104) ∨ (p = 0x005 ∧ q = 0x105)) :
    w &&& 0xFFFFFEFF = p ↔ w = p ∨ w = q := by
  constructor
  · intro hm
    have hb : ∀ i < 32, i ≠ 8 → w.getLsbD i = p.getLsbD i := by
      intro i hi h8
      have hg := congrArg (fun v : Word => v.getLsbD i) hm
      simp only [BitVec.getLsbD_and] at hg
      have hc : (0xFFFFFEFF : Word).getLsbD i = true := by interval_cases i <;> first | exact absurd rfl h8 | decide
      rwa [hc, Bool.and_true] at hg
    have hpq : ∀ i < 32, i ≠ 8 → p.getLsbD i = q.getLsbD i := by rcases h with ⟨rfl, rfl⟩ | ⟨rfl, rfl⟩ <;> decide
    have hp8 : p.getLsbD 8 = false ∧ q.getLsbD 8 = true := by rcases h with ⟨rfl, rfl⟩ | ⟨rfl, rfl⟩ <;> decide
    cases h8 : w.getLsbD 8 with
    | false =>
      refine .inl (BitVec.eq_of_getLsbD_eq fun i hi => ?_)
      by_cases hi8 : i = 8
      · rw [hi8, h8, hp8.1]
      · exact hb i hi hi8
    | true =>
      refine .inr (BitVec.eq_of_getLsbD_eq fun i hi => ?_)
      by_cases hi8 : i = 8
      · rw [hi8, h8, hp8.2]
      · rw [hb i hi hi8, hpq i hi hi8]
  · rcases h with ⟨rfl, rfl⟩ | ⟨rfl, rfl⟩ <;> rintro (rfl | rfl) <;> decide

/-- OP of a word, as a number. -/
theorem toNat_op (w : Word) : (w.extractLsb' 0 8).toNat = w.toNat % 256 := by
  simp [BitVec.extractLsb'_toNat]

/-- RES of a word is zero exactly below 512. -/
theorem res_eq_zero_iff (w : Word) : w.extractLsb' 9 23 = 0 ↔ w.toNat < 512 := by
  rw [← BitVec.toNat_inj]
  simp [BitVec.extractLsb'_toNat, Nat.shiftRight_eq_div_pow]
  omega

/-- M8 of a word, as a number. -/
theorem m8_eq (w : Word) : w.getLsbD 8 = decide (w.toNat / 256 % 2 = 1) := by
  rw [BitVec.getLsbD, Nat.testBit_eq_decide_div_mod_eq]

end Sys2Proof
end

