-- ==== Sys2Proof/Laws/Exec.lean ====
section
/-! SUPPORT. What `exec` and the engine's step can do, said once. -/

namespace Sys2Proof.Machine

/-- `Exec` of R112 for a legal command, as a result. -/
def resultOf (i : Instr) (s : State) : CmdResult :=
  match i with
  | .clear => clearResult
  | .aes => aesResult s
  | .cmac => cmacResult s
  | .s1 => s1Result s
  | .ccmEnc m => ccmEncResult m s
  | .ccmDec m => ccmDecResult m s
  | .k1 => k1Result s
  | .k2 => k2Result s
  | .k3 => k3Result s
  | .k4 => k4Result s
  | .obf => obfResult s
  | .deobf => deobfResult s

/-- Every command's meaning is the completion with its result. -/
theorem exec_eq (i : Instr) (s : State) : exec i s = .next (complete (resultOf i s) s) := by
  cases i <;> rfl

theorem lengthOk_iff (len : BitVec 16) : lengthOk len = true ↔ 1 ≤ len.toNat ∧ len.toNat ≤ 1024 := by
  simp only [lengthOk, Bool.and_eq_true, decide_eq_true_eq]
  exact Iff.rfl

theorem ccmLengthOk_iff (len : BitVec 16) : ccmLengthOk len = true ↔ len.toNat ≤ 1024 := by
  simp only [ccmLengthOk, decide_eq_true_eq]
  exact Iff.rfl

@[simp] theorem length_operandA (s : State) : s.operandA.length = s.lenA.toNat := by simp [State.operandA]

@[simp] theorem length_operandB (s : State) : s.operandB.length = s.lenB.toNat := by simp [State.operandB]

/-- A result's BUF_O string is LEN_A bytes for the four commands that write BUF_O and empty for the others, never longer than
the buffer, and RESULT2 has bit 7 clear. -/
theorem resultOf_ok {i : Instr} {s : State} {r0 r1 : Block} {r2 : Byte} {o : List Byte}
    (h : resultOf i s = .ok r0 r1 r2 o) :
    o.length = (if writesBufO i then s.lenA.toNat else 0) ∧ o.length ≤ 1024 ∧ r2.msb = false := by
  have hnid : ∀ b : Byte, (b &&& 0x7F).msb = false := by decide
  cases i with
  | clear =>
    obtain ⟨-, -, rfl, rfl⟩ := CmdResult.ok.inj h
    exact ⟨rfl, Nat.zero_le _, rfl⟩
  | aes =>
    simp only [resultOf, aesResult] at h
    split at h <;> cases h
    exact ⟨rfl, Nat.zero_le _, rfl⟩
  | cmac =>
    simp only [resultOf, cmacResult] at h
    split at h <;> cases h
    exact ⟨rfl, Nat.zero_le _, rfl⟩
  | s1 =>
    simp only [resultOf, s1Result] at h
    split at h <;> cases h
    exact ⟨rfl, Nat.zero_le _, rfl⟩
  | ccmEnc m =>
    simp only [resultOf, ccmEncResult] at h
    split at h <;> cases h
    rename_i hl
    simp [writesBufO, (ccmLengthOk_iff _).1 hl]
  | ccmDec m =>
    simp only [resultOf, ccmDecResult] at h
    split at h
    · split at h <;> cases h
      rename_i hl _
      simp [writesBufO, (ccmLengthOk_iff _).1 hl]
    · cases h
  | k1 =>
    simp only [resultOf, k1Result] at h
    split at h <;> cases h
    exact ⟨rfl, Nat.zero_le _, rfl⟩
  | k2 =>
    simp only [resultOf, k2Result] at h
    split at h <;> cases h
    exact ⟨rfl, Nat.zero_le _, hnid _⟩
  | k3 =>
    simp only [resultOf, k3Result] at h
    split at h <;> cases h
    exact ⟨rfl, Nat.zero_le _, rfl⟩
  | k4 =>
    simp only [resultOf, k4Result] at h
    split at h <;> cases h
    exact ⟨rfl, Nat.zero_le _, rfl⟩
  | obf =>
    simp only [resultOf, obfResult] at h
    split at h <;> cases h
    rename_i hl
    simp [writesBufO, ((lengthOk_iff _).1 hl).2]
  | deobf =>
    simp only [resultOf, deobfResult] at h
    split at h <;> cases h
    rename_i hl
    simp [writesBufO, ((lengthOk_iff _).1 hl).2]

/-! ### Each command's result -/

theorem exec_ok {i : Instr} {s : State} {r0 r1 : Block} {r2 : Byte} {o : List Byte} (h : resultOf i s = .ok r0 r1 r2 o) :
    exec i s = .next (finish r0 r1 r2 o s) := by
  rw [exec_eq, h]; rfl

theorem exec_error {i : Instr} {s : State} {c : ErrCode} (h : resultOf i s = .error c) :
    exec i s = .next (takeError c s) := by
  rw [exec_eq, h]; rfl

theorem lengthOk_eq_false_iff (len : BitVec 16) : lengthOk len = false ↔ len.toNat = 0 ∨ 1024 < len.toNat := by
  rw [← Bool.not_eq_true, lengthOk_iff]; omega

theorem ccmLengthOk_eq_false_iff (len : BitVec 16) : ccmLengthOk len = false ↔ 1024 < len.toNat := by
  rw [← Bool.not_eq_true, ccmLengthOk_iff]; omega

/-- Byte i of operand A (R36). -/
theorem getD_operandA (s : State) {i : Nat} (h : i < s.lenA.toNat) :
    s.operandA.getD i 0 = Memory.get s.mem (0x400 + i) := by
  rw [State.operandA, Memory.getD_load _ _ _ h]; rfl

/-- Byte i of operand B (R37). -/
theorem getD_operandB (s : State) {i : Nat} (h : i < s.lenB.toNat) :
    s.operandB.getD i 0 = Memory.get s.mem (0x800 + i) := by
  rw [State.operandB, Memory.getD_load _ _ _ h]; rfl

@[simp] theorem length_receivedMic (m : MicSize) (s : State) : (s.receivedMic m).length = m.bytes := by
  cases m <;> simp [State.receivedMic, MicSize.bytes]

theorem micBytes_le (m : MicSize) : m.bytes ≤ 16 := by cases m <;> decide

/-- The MIC comparison of CCM_DEC (R196) is equality. -/
theorem micEqual_receivedMic (m : MicSize) (s : State) (p : List Byte) :
    micEqual (ccmMic s.key s.nonce m.bytes p) (s.receivedMic m) = true ↔
      ccmMic s.key s.nonce m.bytes p = s.micIn.toList.take m.bytes := by
  rw [micEqual_iff (by rw [length_receivedMic, length_ccmMic _ _ (micBytes_le m)])]
  rfl

/-- A successful completion that writes nothing to BUF_O, in any memory. -/
theorem succeeded_finish_nil (s : State) (r0 r1 : Block) (r2 : Byte) :
    Succeeded s (finish r0 r1 r2 [] s) r0 r1 r2 [] where
  phase := rfl
  result0 := rfl
  result1 := rfl
  result2 := rfl
  bufO i hi := by simp at hi
  bufORest _ _ := get_bufO_scrubbed _ _
  done := rfl
  err := rfl
  errcode := rfl
  lastop := rfl
  intflag := rfl
  inten := rfl
  scrubbed := inputsZero_finish r0 r1 r2 [] s

/-- What a completed command can be: the one inversion lemma of `exec`. -/
theorem exec_cases {i : Instr} {s t : State} (h : exec i s = .next t) :
    (∃ r0 r1 r2 o, resultOf i s = .ok r0 r1 r2 o ∧ t = finish r0 r1 r2 o s) ∨
      (∃ c, resultOf i s = .error c ∧ t = takeError c s) := by
  rw [exec_eq] at h
  injection h with h
  subst h
  rcases complete_cases (resultOf i s) s with ⟨r0, r1, r2, o, hr, he⟩ | ⟨c, hr, he⟩
  · exact .inl ⟨r0, r1, r2, o, hr, he⟩
  · exact .inr ⟨c, hr, he⟩

/-- The engine's turn: nothing while IDLE; in BUSY the decoded command's completion, or ERR_OPCODE. -/
theorem engineTurn_cases (s : State) :
    (s.phase = .idle ∧ engineTurn s = .next s) ∨
      (s.phase = .busy ∧ ∃ i, decode s.cmdl = .ok i ∧ engineTurn s = exec i s) ∨
      (s.phase = .busy ∧ ∃ e, decode s.cmdl = .error e ∧ engineTurn s = .next (takeError .opcode s)) := by
  cases hp : s.phase with
  | idle => exact .inl ⟨rfl, by simp [engineTurn, State.busy, hp]⟩
  | busy =>
    right
    cases hd : decode s.cmdl with
    | ok i => exact .inl ⟨rfl, i, rfl, by simp [engineTurn, State.busy, hp, completionStep, hd]⟩
    | error e => exact .inr ⟨rfl, e, rfl, by simp [engineTurn, State.busy, hp, completionStep, hd]⟩

end Sys2Proof.Machine
end

