-- ==== Sys2Proof/Laws/PerInstr.lean ====
section
/-! SUPPORT. The encoding of each command, instruction by instruction: its word is legal (R103) and its fields are the ones R100
to R102 give it. -/

namespace Sys2Proof.Laws.EncodeFields

/-- The word of i is legal, its OP and M8 fields are i's, its RES field is 0, and its text form is read back
(R107). -/
def Statement (i : Instr) : Prop :=
  legalWord (encode i) = true ∧ (encode i).extractLsb' 0 8 = i.opcode ∧ (encode i).getLsbD 8 = i.m8 ∧
    (encode i).extractLsb' 9 23 = 0 ∧ parseCommand i.text = some i

theorem clear : Statement .clear := by unfold Statement; decide +kernel
theorem aes : Statement .aes := by unfold Statement; decide +kernel
theorem cmac : Statement .cmac := by unfold Statement; decide +kernel
theorem s1 : Statement .s1 := by unfold Statement; decide +kernel
theorem ccmEnc (m : MicSize) : Statement (.ccmEnc m) := by cases m <;> unfold Statement <;> decide +kernel
theorem ccmDec (m : MicSize) : Statement (.ccmDec m) := by cases m <;> unfold Statement <;> decide +kernel
theorem k1 : Statement .k1 := by unfold Statement; decide +kernel
theorem k2 : Statement .k2 := by unfold Statement; decide +kernel
theorem k3 : Statement .k3 := by unfold Statement; decide +kernel
theorem k4 : Statement .k4 := by unfold Statement; decide +kernel
theorem obf : Statement .obf := by unfold Statement; decide +kernel
theorem deobf : Statement .deobf := by unfold Statement; decide +kernel

end Sys2Proof.Laws.EncodeFields
end

