-- ==== Sys2Proof/Laws/Timed.lean ====
section
/-! SUPPORT. What the timed machine's operations do while a command is in progress, said once. -/

namespace Sys2Proof.Machine

@[simp] theorem clockCount_append (es fs : List TimedEvent) : clockCount (es ++ fs) = clockCount es + clockCount fs := by
  induction es with
  | nil => simp [clockCount]
  | cons x es ih => cases x <;> simp [clockCount, ih]; omega

/-- An accepted command starts the count at its LATENCY (R112, R312). -/
theorem timedAccess_accept (l : Config.Latency) {t : Timed} (h : t.core.phase = .idle) (w : Word) :
    timedAccess l (.write 0x004 4 w) t =
      ({ core := accept w t.core,
         left := l.cycles (w.extractLsb' 0 8) t.core.lenA.toNat t.core.lenB.toNat (w.getLsbD 8) }, .written) := by
  have hw : (Access.write 4 4 w).wellFormed = true := by
    simp [Access.wellFormed, Access.width, Access.offset, Access.narrowCmdWrite]
  have hb : busAccess (.write 4 4 w) t.core = (accept w t.core, .written) := by
    rw [busAccess_write hw, deliverWrite, if_pos rfl, cmdWrite_idle h]
  simp only [timedAccess, hb]
  simp [State.busy, h, latencyOf]

/-- While BUSY an access leaves the count as it is. -/
theorem timedAccess_busy (l : Config.Latency) {t : Timed} (h : t.core.phase = .busy) (a : Access) :
    (timedAccess l a t).1 = { core := (busAccess a t.core).1, left := t.left } := by
  simp [timedAccess, State.busy, h]

/-- A clock cycle that is not the count's last only counts. -/
theorem timedClock_counts {t : Timed} (h : t.core.phase = .busy) (hl : 1 < t.left) :
    timedClock t = .next { core := t.core, left := t.left - 1 } := by
  have h2 : ¬t.left ≤ 1 := by omega
  simp [timedClock, State.busy, h, h2]

/-- The count's last clock cycle is the engine's step. -/
theorem timedClock_completes {t : Timed} {s : State} (h : t.core.phase = .busy) (hl : t.left ≤ 1)
    (he : engineTurn t.core = .next s) : timedClock t = .next { core := s, left := 0 } := by
  simp [timedClock, State.busy, h, hl, he]

/-- While IDLE a clock cycle does nothing. -/
theorem timedClock_idle {t : Timed} (h : t.core.phase = .idle) : timedClock t = .next t := by
  simp [timedClock, State.busy, h]

/-- Events one list after the other. -/
theorem timedEvents_append (l : Config.Latency) {es : List TimedEvent} (fs : List TimedEvent) {t u : Timed}
    (h : timedEvents l es t = .next u) : timedEvents l (es ++ fs) t = timedEvents l fs u := by
  induction es generalizing t with
  | nil => cases h; rfl
  | cons x es ih =>
    cases x with
    | access a => exact ih h
    | clock =>
      simp only [List.cons_append, timedEvents] at h ⊢
      split at h
      · exact ih h
      · cases h
      · cases h

/-- No command's result depends on INTEN or INTFLAG (R106). -/
theorem resultOf_flags (i : Instr) (s : State) (e f : BitVec 3) :
    resultOf i { s with inten := e, intflag := f } = resultOf i s := by
  cases i <;> rfl

end Sys2Proof.Machine
end

