-- ==== Sys2Proof/Tests/Slice0.lean ====
section
/-! SUPPORT. The model's own tests. Expected values come from the spec: the worked examples of its rules, the tables of
spec/95_test_vectors.md, and words written out from spec/30_encoding.md. The theorems `test_witness_...` show, for every
obligation that has hypotheses, states and operands that meet them. -/

namespace Sys2Proof.Tests

open Sys2Proof Sys2Proof.Machine

-- One evaluation at a time: many long ones waiting together use up the checker's threads.
set_option Elab.async false

/-! ### Helpers -/

/-- n bytes, the first the most significant of v: a hex string of the spec as bytes. -/
def hex (n v : Nat) : List Byte := (List.range n).map fun i => BitVec.ofNat 8 (v / 256 ^ (n - 1 - i))

/-- An IDLE machine with operands loaded. -/
def loaded (key : Nat) (a b : List Byte) : State :=
  { State.reset with
    key := blockOf (hex 16 key), lenA := BitVec.ofNat 16 a.length, lenB := BitVec.ofNat 16 b.length
    mem := Memory.store (Memory.store [] 0x400 a) 0x800 b }

/-- The state one step leaves, if it is a next state. -/
def nextState (o : Host.Outcome State Fault Refusal) : Option State :=
  match o with
  | .next t => some t
  | .fault _ => none
  | .refused _ => none

/-- The machine after command word w has been accepted in s and its one step taken. -/
def ran (s : State) (w : Nat) : Option State := nextState (step (s.withFetchWord 32 w))

/-- STATUS, RESULT0, RESULT1 and RESULT2 after command word w. -/
def results (s : State) (w : Nat) : Option (Word × List Byte × List Byte × Byte) :=
  (ran s w).map fun t => (t.statusWord, t.result0.toList, t.result1.toList, t.result2)

/-- STATUS, RESULT0 and the first n bytes of BUF_O after command word w. -/
def output (n : Nat) (s : State) (w : Nat) : Option (Word × List Byte × List Byte) :=
  (ran s w).map fun t => (t.statusWord, t.result0.toList, Memory.load t.mem 0xC00 n)

/-- A machine with command word w in progress. -/
def inProgress (w : Word) : State := accept w State.reset

/-- An IDLE machine with the given lengths and nothing else. -/
def lengths (la lb : Nat) : State := { State.reset with lenA := BitVec.ofNat 16 la, lenB := BitVec.ofNat 16 lb }

/-! ### Encoding: words written out bit by bit from R100 and R102 -/

/-- OP = 0x01, M8 = 0, RES = 0. -/
theorem test_decode_aes : decode 0b00000000000000000000000_0_00000001 = .ok .aes := by decide +kernel
/-- OP = 0x03. -/
theorem test_decode_s1 : decode 0b00000000000000000000000_0_00000011 = .ok .s1 := by decide +kernel
/-- OP = 0x05, M8 = 0 and 1 (R101). -/
theorem test_decode_ccm_dec : decode 0b00000000000000000000000_0_00000101 = .ok (.ccmDec .m4) ∧
    decode 0b00000000000000000000000_1_00000101 = .ok (.ccmDec .m8) := by decide +kernel
/-- OP = 0x09. -/
theorem test_decode_k4 : decode 0b00000000000000000000000_0_00001001 = .ok .k4 := by decide +kernel
/-- OP = 0x0B. -/
theorem test_decode_deobf : decode 0b00000000000000000000000_0_00001011 = .ok .deobf := by decide +kernel
/-- R104: opcodes 0x0C and 0xFF, the lowest and the highest reserved bit, M8 on AES and on CLEAR. -/
theorem test_decode_illegal :
    decode 0x0000000C = .error .reservedOpcode ∧ decode 0x000000FF = .error .reservedOpcode ∧
    decode 0x00000204 = .error .reservedBits ∧ decode 0x80000001 = .error .reservedBits ∧
    decode 0x00000101 = .error .strayM8 ∧ decode 0x00000100 = .error .strayM8 := by decide +kernel
/-- R107: `CCM_ENC M8` is word 0x00000104, on the lanes of R73. -/
theorem test_encode_ccm_enc : encode (.ccmEnc .m8) = 0x00000104 ∧ encodeBytes (.ccmEnc .m8) = [0x04, 0x01, 0x00, 0x00] := by
  decide +kernel
/-- R105: a command is one 32-bit word, no less and no more. -/
theorem test_decode_length : decodeBytes [0x01] = .error .notOneWord ∧ decodeBytes [1, 0, 0, 0, 0] = .error .notOneWord := by
  decide +kernel
/-- The rows of spec/opcode_table.json, 32 bits each, at their match values and with M8 set. -/
theorem test_table_words :
    (List.range 12).map (fun w => decodeTableWord 32 w) =
      [some .clear, some .aes, some .cmac, some .s1, some (.ccmEnc .m4), some (.ccmDec .m4), some .k1, some .k2, some .k3,
        some .k4, some .obf, some .deobf] ∧
    decodeTableWord 32 0x104 = some (.ccmEnc .m8) ∧ decodeTableWord 32 0x106 = none := by decide +kernel
/-- R107: reading a command as a host script writes it. -/
theorem test_parse : parseCommand "CCM_ENC M8" = some (.ccmEnc .m8) ∧ parseCommand "CCM_ENC" = none := by decide +kernel

/-! ### WellFormed -/

/-- R101: both MIC sizes are well formed, 4 and 8 bytes. -/
theorem test_wellFormed_instr : Instr.wellFormed (.ccmEnc .m4) = true ∧ Instr.wellFormed (.ccmDec .m8) = true ∧
    MicSize.bytes .m4 = 4 ∧ MicSize.bytes .m8 = 8 := by decide
/-- R103: each condition of legality refuses a word that breaks it alone. -/
theorem test_legalWord_refuses : legalWord 0x00000200 = false ∧ legalWord 0x0000000C = false ∧ legalWord 0x00000106 = false := by
  decide
/-- R72, R77: each condition of a legal access refuses an access that breaks it alone. -/
theorem test_access_refuses :
    (Access.read 0x400 3).wellFormed = false ∧ (Access.read 0x402 4).wellFormed = false ∧
    (Access.read 0x1000 1).wellFormed = false ∧ (Access.write 0x004 2 0).wellFormed = false ∧
    (Access.write 0x007 1 0).wellFormed = false ∧ (Access.read 0x006 2).wellFormed = true ∧
    (Access.write 0xFFC 4 0).wellFormed = true := by decide

/-! ### The functions -/

/-- R132's worked values. -/
theorem test_gmul : gmul 0x57 0x83 = 0xC1 ∧ gmul 0x57 0x13 = 0xFE ∧ xtime 0x57 = 0xAE ∧ xtime 0x80 = 0x1B := by decide +kernel
/-- R139's worked values: RK_1 and RK_10. -/
theorem test_roundKey :
    (roundKey (keyWords (blockOf (hex 16 0x2b7e151628aed2a6abf7158809cf4f3c))) 1).toList = hex 16 0xa0fafe1788542cb123a339392a6c7605 ∧
    (roundKey (keyWords (blockOf (hex 16 0x2b7e151628aed2a6abf7158809cf4f3c))) 10).toList = hex 16 0xd014f9a8c9ee2589e13f0cc8b6630ca6 := by
  decide +kernel
/-- R170's worked value, and the second subkey of spec/95_test_vectors.md (no reduction, then a reduction). -/
theorem test_dbl :
    (dbl (blockOf (hex 16 0x7df76b0c1ab899b33e42f047b91b546f))).toList = hex 16 0xfbeed618357133667c85e08f7236a8de ∧
    (dbl (blockOf (hex 16 0xfbeed618357133667c85e08f7236a8de))).toList = hex 16 0xf7ddac306ae266ccf90bc11ee46d513b := by
  decide +kernel
/-- R191: the flag bytes; R240's example: the Privacy Plaintext. -/
theorem test_blocks : ccmFlags 4 = 0x09 ∧ ccmFlags 8 = 0x19 ∧
    (privacyPlaintext 0x12345678 ⟨⟨hex 7 0x01020304050607⟩, rfl⟩).toList = hex 16 0x00000000001234567801020304050607 := by
  decide +kernel

/-! ### The commands -/

/-- R130's example: STATUS after CLEAR, and the outputs. -/
theorem test_clear : results (loaded 1 [1, 2] [3]) 0x000 = some (0x00000002, zeros 16, zeros 16, 0) := by decide +kernel
/-- R142's example (FIPS-197 C.1). -/
theorem test_aes : results (loaded 0x000102030405060708090a0b0c0d0e0f (hex 16 0x00112233445566778899aabbccddeeff) []) 0x001 =
    some (0x00010002, hex 16 0x69c4e0d86a7b0430d8cdb78070b4c55a, zeros 16, 0) := by decide +kernel
/-- R142: LEN_A = 17 is ERR_LENGTH, with no output. -/
theorem test_aes_length : results (loaded 1 (zeros 17) []) 0x001 = some (0x00010014, zeros 16, zeros 16, 0) := by decide +kernel
/-- R175's example (RFC 4493 example 2). -/
theorem test_cmac : results (loaded 0x2b7e151628aed2a6abf7158809cf4f3c (hex 16 0x6bc1bee22e409f96e93d7e117393172a) []) 0x002 =
    some (0x00020002, hex 16 0x070a16b46b4d4144f79bdd9dd04a287c, zeros 16, 0) := by decide +kernel
/-- R176's example, with a KEY that is ignored. -/
theorem test_s1 : results (loaded 0x2b7e151628aed2a6abf7158809cf4f3c (hex 4 0x74657374) []) 0x003 =
    some (0x00030002, hex 16 0xb73cefbd641ef2ea598c2b6efb62f79c, zeros 16, 0) := by decide +kernel

/-- The operands of the CCM table of spec/95_test_vectors.md. -/
def ccmOperands (a : List Byte) (mic : Nat) : State :=
  { loaded 0x000102030405060708090a0b0c0d0e0f a [] with
    nonce := ⟨⟨hex 13 0x101112131415161718191a1b1c⟩, rfl⟩, micIn := ⟨⟨hex 8 mic⟩, rfl⟩ }

/-- spec/95_test_vectors.md, "1 byte, M=8". -/
theorem test_ccm_enc : output 2 (ccmOperands [0x20] 0) 0x104 =
    some (0x00040002, hex 16 0x8ac5cc5f174a7c650000000000000000, [0x5c, 0x00]) := by decide +kernel
/-- LEN_A = 1025 is ERR_LENGTH. -/
theorem test_ccm_enc_length : output 1 (lengths 1025 0) 0x004 = some (0x00040014, zeros 16, zeros 1) := by decide +kernel
/-- spec/95_test_vectors.md, decrypt 17 bytes, M = 4, MIC_IN[4..8) ignored. -/
theorem test_ccm_dec : output 17 (ccmOperands (hex 17 0x5cc052629c79c8f3937062ba032a42ae1a) 0x1c3fc1f5ffffffff) 0x005 =
    some (0x00050002, zeros 16, hex 17 0x202122232425262728292a2b2c2d2e2f30) := by decide +kernel
/-- R198's example, tampered: ERR_AUTH. -/
theorem test_ccm_dec_tampered :
    output 16 { State.reset with micIn := ⟨⟨hex 8 0x73e9bd9426914f3a⟩, rfl⟩ } 0x105 = some (0x00050024, zeros 16, zeros 16) := by
  decide +kernel
/-- R225's example. -/
theorem test_k1 : results (loaded 0x2ba14ffa0df84a2831938d57d276cab4 (hex 16 0x3216d1509884b533248541792b877f98)
      (hex 16 0x5a09d60797eeb4478aada59db3352a0d)) 0x006 =
    some (0x00060002, hex 16 0xf6ed15a8934afbe7d83e8dcb57fcf5d7, zeros 16, 0) := by decide +kernel
/-- R225: LEN_B = 0 is ERR_LENGTH. -/
theorem test_k1_length : results (lengths 1 0) 0x006 = some (0x00060014, zeros 16, zeros 16, 0) := by decide +kernel
/-- R226's example. -/
theorem test_k2 : results (loaded 0 (hex 16 0xf7a2a44f8e8a8029064f173ddc1e2b00) [0x00]) 0x007 =
    some (0x00070002, hex 16 0x9f589181a0f50de73c8070c7a6d27f46, hex 16 0x4c715bd4a64b938f99b453351653124f, 0x7f) := by
  decide +kernel
/-- R227's example. -/
theorem test_k3 : results (loaded 0 (hex 16 0xf7a2a44f8e8a8029064f173ddc1e2b00) []) 0x008 =
    some (0x00080002, hex 16 0xff046958233db0140000000000000000, zeros 16, 0) := by decide +kernel
/-- R228's example. -/
theorem test_k4 : results (loaded 0 (hex 16 0x3216d1509884b533248541792b877f98) []) 0x009 =
    some (0x00090002, hex 16 0x38000000000000000000000000000000, zeros 16, 0) := by decide +kernel

/-- The operands of R244's example, with the given data. -/
def obfOperands (a : List Byte) : State :=
  { loaded 0x4c715bd4a64b938f99b453351653124f a [] with ivindex := 0x12345678, prand := ⟨⟨hex 7 0x01020304050607⟩, rfl⟩ }

/-- R244's example. -/
theorem test_obf : output 7 (obfOperands (hex 6 0x0b0000010203)) 0x00A =
    some (0x000A0002, zeros 16, hex 7 0x313e1516482200) := by decide +kernel
/-- R245's example. -/
theorem test_deobf : output 7 (obfOperands (hex 6 0x313e15164822)) 0x00B =
    some (0x000B0002, zeros 16, hex 7 0x0b000001020300) := by decide +kernel
/-- R263: an illegal word (opcode 0x0C) ends with ERR_OPCODE and LASTOP 0x0C. -/
theorem test_illegal_word : results (loaded 1 [1] []) 0x00C = some (0x000C0034, zeros 16, zeros 16, 0) := by decide +kernel
/-- R114: a completion scrubs the inputs; R274: it sets DONEIF; R53: IRQ follows INTEN. -/
theorem test_scrub_and_flag :
    (ran { loaded 1 [1, 2] [3] with inten := 0b001 } 0x000).map
        (fun t => (t.key.toList, t.lenA.toNat, t.mem.length, t.intflag.toNat, t.irq)) = some (zeros 16, 0, 0, 1, true) := by decide +kernel

/-! ### The bus -/

/-- R74's example: a key whose bytes are 2b 7e 15 16 is loaded by MemWrite(0x020, 4, 0x16157e2b). -/
theorem test_load_key : ((busAccess (.write 0x020 4 0x16157e2b) State.reset).1.key.toList).take 5 = [0x2b, 0x7e, 0x15, 0x16, 0] := by
  decide +kernel
/-- R75: a 2-byte write at 0x01E changes the upper half of IVINDEX. -/
theorem test_narrow_ivindex :
    (busAccess (.write 0x01E 2 0xABCD) { State.reset with ivindex := 0x11223344 }).1.ivindex = 0xABCD3344 := by decide +kernel
/-- R80, R116: writes while BUSY are dropped and set OVRIF. -/
theorem test_overrun : (busAccess (.write 0x400 4 0xFFFFFFFF) (inProgress 0)).1.mem = [] ∧
    (busAccess (.write 0x400 4 0xFFFFFFFF) (inProgress 0)).1.intflag = 0b100 ∧
    (busAccess (.write 0x004 4 1) (inProgress 0)).1.cmdl = 0 := by decide +kernel
/-- R109, R112: a host runs `run CLEAR`, the engine's turn falling between its accesses. -/
theorem test_host_script :
    (match Host.Core.run Sys2Proof.core 4 ({ State.reset with hosts := [⟨scriptOf [.run .clear], []⟩] } : State) with
      | .next t => (Machine.State.hosts t).map (fun h => (h.script, h.log))
      | .fault _ => []
      | .refused _ => []) = [([], [.data 0x00000002, .written])] := by decide +kernel
/-- R109: `load NONCE` writes three words and one byte. -/
theorem test_load_nonce : (loadStmts (RegName.base .nonce) (hex 13 0x101112131415161718191a1b1c)).map Stmt.toAccess =
    [.write 0x030 4 0x13121110, .write 0x034 4 0x17161514, .write 0x038 4 0x1b1a1918, .write 0x03c 1 0x1c] := by decide +kernel
/-- R70: two units; the access goes to the second, at its own offset. -/
theorem test_platform :
    (Platform.access (.read 0x9000 4) ⟨[⟨0x4000, State.reset⟩, ⟨0x9000, State.reset⟩]⟩).map Prod.snd = some (.data 0x4D534301) := by
  decide +kernel

/-! ### Witnesses: hypotheses of the obligations, met -/

theorem test_witness_DecodeAndEncodeAreInverse :
    Instr.wellFormed (.ccmEnc .m8) = true ∧ decode 0x104 = .ok (.ccmEnc .m8) ∧ decode 0 = .ok .clear := by decide +kernel

/-- Both ways the engine's turn can be next, over a CCM_DEC and a DEOBF. -/
theorem test_witness_StepRunsTheLatchedCommand :
    ((inProgress 0x105).phase = .busy ∧ decode (inProgress 0x105).cmdl = .ok (.ccmDec .m8) ∧ EngineNext (inProgress 0x105)) ∧
    ((State.reset.withFetchWord 32 0x0B).phase = .busy ∧ decode (State.reset.withFetchWord 32 0x0B).cmdl = .ok .deobf ∧
      EngineNext (State.reset.withFetchWord 32 0x0B)) :=
  ⟨⟨rfl, by decide +kernel, .inl rfl⟩, rfl, by decide +kernel, .inr rfl⟩

theorem test_witness_EngineStepsOnlyWhileBusy : State.reset.phase = .idle ∧ (inProgress 1).phase = .busy := by decide

/-- The lowest reserved opcode, the highest, both ends of RES, and M8 on AES. -/
theorem test_witness_IllegalWordEndsInOpcodeError : ∀ w ∈ ([0x0C, 0xFF, 0x200, 0x80000000, 0x101] : List Word),
    (inProgress w).phase = .busy ∧ legalWord (inProgress w).cmdl = false := by
  simp only [List.forall_mem_cons]
  exact ⟨⟨rfl, rfl⟩, ⟨rfl, rfl⟩, ⟨rfl, rfl⟩, ⟨rfl, rfl⟩, ⟨rfl, rfl⟩, fun _ h => (List.not_mem_nil h).elim⟩

/-- Busy, with a host's turn and a reset before the engine's. -/
theorem test_witness_AcceptedCommandCompletes :
    ({ inProgress 1 with sched := [.host 0, .engine, .reset] } : State).phase = .busy ∧ (inProgress 1).phase = .busy := by
  decide

/-- The invariant holds at reset and with a command in progress, and both step. -/
theorem test_witness_StepKeepsInvariant : State.reset.Inv ∧ step State.reset = .next State.reset ∧
    (inProgress 0).Inv ∧ ∃ t, step (inProgress 0) = .next t := by
  refine ⟨?_, rfl, ?_, _, rfl⟩ <;> constructor <;>
    first | decide | (intro h; cases h; done) | exact fun _ => ⟨rfl, rfl⟩ | exact fun _ => ⟨rfl, rfl, rfl, fun _ _ => rfl⟩

theorem test_witness_CommandAcceptance : State.reset.phase = .idle ∧ (loaded 1 [1] [2]).phase = .idle := by decide

theorem test_witness_CommandOverrunIsDropped : (inProgress 0x0C).phase = .busy := by decide

/-- A 1-byte write at each end of CMD, a 2-byte write, and legal reads of every width. -/
theorem test_witness_CmdTakesOnlyWordWrites :
    ((1 = 1 ∨ 1 = 2) ∧ 0x004 ≤ 0x007 ∧ 0x007 ≤ 0x007) ∧ ((2 = 1 ∨ 2 = 2) ∧ 0x004 ≤ 0x004 ∧ 0x004 ≤ 0x007) ∧
    (Access.read 0x004 4).wellFormed = true ∧ (Access.read 0x006 2).wellFormed = true ∧ (Access.read 0x007 1).wellFormed = true := by
  decide

/-- Each of the three ways to be forbidden, and the last allowed access of each width. -/
theorem test_witness_BusErrorExactlyOnForbiddenAccess :
    (3 ≠ 1 ∧ 3 ≠ 2 ∧ 3 ≠ 4) ∧ (Access.read 0x401 2).offset % 2 ≠ 0 ∧ 0x1000 < (Access.read 0x1000 1).offset + 1 ∧
    (Access.write 0xFFC 4 0).offset % 4 = 0 ∧ (Access.write 0xFFC 4 0).offset + 4 ≤ 0x1000 ∧
    (Access.write 0xFFC 4 0).narrowCmdWrite = false ∧ (Access.read 0xFFF 1).offset + 1 ≤ 0x1000 := by decide

theorem test_witness_WordAccessIsItsByteAccesses :
    (Access.write 0xFFE 2 0).wellFormed = true ∧ ((Access.write 0x000 4 0).wellFormed = true ∧ (0x000 : Nat) ≠ 0x004) ∧
    (Access.write 0xFFC 4 0).wellFormed = true ∧ (Access.read 0x004 2).wellFormed = true := by decide

/-- Both ends of the space, where rows meet (0x03C and 0x03D), and the offsets next to 0x400. -/
theorem test_witness_AddressMapIsAPartition :
    0x000 < 0x1000 ∧ 0xFFF < 0x1000 ∧ rowOf 0x03C ≠ rowOf 0x03D ∧ rowOf 0x3FF ≠ rowOf 0x400 := by decide +kernel

/-- Busy, and legal accesses at the ends of both input ranges. -/
theorem test_witness_InputsHeldWhileBusy : (inProgress 1).phase = .busy ∧
    (InputOffset 0x014 ∧ (Access.write 0x014 4 0).wellFormed = true) ∧ (InputOffset 0x04F ∧ (Access.write 0x04F 1 0).wellFormed = true) ∧
    (InputOffset 0x400 ∧ (Access.read 0x400 4).wellFormed = true) ∧ (InputOffset 0xBFE ∧ (Access.read 0xBFE 2).wellFormed = true) := by
  decide

theorem test_witness_OutputsHiddenWhileBusy : (inProgress 1).phase = .busy ∧
    (OutputOffset 0x050 ∧ (Access.read 0x050 4).wellFormed = true) ∧ (OutputOffset 0x073 ∧ (Access.write 0x073 1 0).wellFormed = true) ∧
    (OutputOffset 0xC00 ∧ (Access.write 0xC00 4 0).wellFormed = true) ∧ (OutputOffset 0xFFF ∧ (Access.read 0xFFF 1).wellFormed = true) := by
  decide

theorem test_witness_KeyReadsZero : (Access.read 0x020 4).wellFormed = true ∧ (Access.read 0x02F 1).wellFormed = true := by decide

/-- Both ends of the reserved control range; the reserved input and output bytes are the offsets the statement names. -/
theorem test_witness_ReservedReadZeroIgnoreWrites : (Access.read 0x074 4).wellFormed = true ∧ (Access.write 0x3FF 1 0).wellFormed = true ∧
    State.reset.phase = .idle ∧ ((0x03D ≤ 0x03F ∧ 0x03F ≤ 0x03F) ∨ 0x03F = 0x047) := by decide

/-- Both ends of ID and STATUS, every width. -/
theorem test_witness_IdAndStatusWords : (Access.write 0x000 4 0).wellFormed = true ∧ (Access.write 0x002 2 0).wellFormed = true ∧
    (Access.write 0x003 1 0).wellFormed = true ∧ (Access.write 0x008 4 0).wellFormed = true ∧
    (Access.write 0x00A 2 0).wellFormed = true ∧ (Access.write 0x00B 1 0).wellFormed = true := by decide

/-- Every width at the first byte, and both ends of the bytes that hold nothing. -/
theorem test_witness_IntenWrites : (∀ n ∈ [1, 2, 4], n = 1 ∨ n = 2 ∨ n = 4) ∧ (Access.write 0x00D 1 0).wellFormed = true ∧
    (Access.write 0x00E 2 0).wellFormed = true ∧ (Access.write 0x00F 1 0).wellFormed = true := by decide

theorem test_witness_IntflagWriteOneToClear : (∀ n ∈ [1, 2, 4], n = 1 ∨ n = 2 ∨ n = 4) ∧ (Access.write 0x011 1 0).wellFormed = true ∧
    (Access.write 0x012 2 0).wellFormed = true ∧ (Access.write 0x013 1 0).wellFormed = true := by decide

theorem test_witness_IrqIsAnEnabledFlag : State.reset.inten = (inProgress 1).inten ∧ State.reset.intflag = (inProgress 1).intflag := by
  decide

/-- IDLE, for the statements about registers whose only hypothesis it is (LengthAndIvRegisters, NarrowLengthWrites,
ByteStringRegisters, OutputBytesReadWhileIdle, LoadKeyStoresTheString), with the last element of each string. -/
theorem test_witness_IdleRegisters : (lengths 1 2).phase = .idle ∧ 15 < 16 ∧ 12 < 13 ∧ 6 < 7 ∧ 7 < 8 ∧ 1023 < 1024 := by decide

/-- Both ends of BUF_A and BUF_B, with bytes listed. -/
theorem test_witness_BufferBytes : Memory.wf (loaded 1 [1, 0, 2] [3]).mem = true ∧ (loaded 1 [1, 0, 2] [3]).phase = .idle ∧
    (loaded 1 [1, 0, 2] [3]).mem ≠ [] ∧ ∀ a ∈ [0x400, 0x7FF, 0x800, 0xBFF], 0x400 ≤ a ∧ a < 0xC00 := by decide +kernel

/-- Accesses that are no accepted command: a data write while IDLE, and a CMD write while BUSY. -/
theorem test_witness_OutputsStableUntilNextCommand :
    (∀ w, Access.write 0x400 4 1 = .write 0x004 4 w → State.reset.phase = .busy) ∧
    ∀ w, Access.write 0x004 4 1 = .write 0x004 4 w → (inProgress 2).phase = .busy :=
  ⟨fun _ h => (by injection h; omega), fun _ _ => rfl⟩

/-- Zero outputs; and an IDLE state with a result and an operand to wipe. -/
theorem test_witness_ClearWipesOutputs : OutputsZero State.reset ∧ (loaded 1 [1] [2]).phase = .idle ∧
    ({ loaded 1 [1] [2] with result2 := 0x55 } : State).phase = .idle ∧ Memory.get (loaded 1 [1] [2]).mem 0x400 = 1 :=
  ⟨⟨rfl, rfl, rfl, fun _ _ => rfl⟩, by decide, by decide, by decide⟩

/-- LEN_A = 16, and the lengths on both sides of it. -/
theorem test_witness_AesEncryptsOneBlock : (lengths 16 0).lenA.toNat = 16 ∧ (lengths 15 0).lenA.toNat ≠ 16 ∧
    (lengths 17 0).lenA.toNat ≠ 16 := by decide

/-- Both ends of 1..1024 and the lengths just outside it, for the commands on operand A alone (CMAC, S1, K3, K4, OBF, DEOBF,
and the CCM commands, for which 0 is inside). -/
theorem test_witness_LengthA : (∀ n ∈ [1, 1024], 1 ≤ (lengths n 0).lenA.toNat ∧ (lengths n 0).lenA.toNat ≤ 1024) ∧
    (lengths 0 0).lenA.toNat = 0 ∧ 1024 < (lengths 1025 0).lenA.toNat ∧ 1024 < (lengths 65535 0).lenA.toNat ∧
    Memory.wf (lengths 1024 0).mem = true := by decide

/-- The same for K1 and K2, each length inside and outside. -/
theorem test_witness_LengthAB : (1 ≤ (lengths 1 1024).lenA.toNat ∧ (lengths 1 1024).lenA.toNat ≤ 1024 ∧
      1 ≤ (lengths 1 1024).lenB.toNat ∧ (lengths 1 1024).lenB.toNat ≤ 1024) ∧
    (lengths 1 0).lenB.toNat = 0 ∧ 1024 < (lengths 1 1025).lenB.toNat ∧ (lengths 0 1).lenA.toNat = 0 ∧
    1024 < (lengths 1025 1).lenA.toNat := by decide

/-- The §8 scenario of spec/95_test_vectors.md: the right MIC, and one that differs in its last bit. -/
theorem test_witness_CcmDecDecryptsOrFails :
    Memory.wf State.reset.mem = true ∧ State.reset.lenA.toNat ≤ 1024 ∧
    ccmMic State.reset.key State.reset.nonce 8 (ctr State.reset.key State.reset.nonce State.reset.operandA) =
      hex 8 0x73e9bd9426914f3b ∧
    hex 8 0x73e9bd9426914f3a ≠ hex 8 0x73e9bd9426914f3b ∧
    ({ State.reset with micIn := ⟨⟨hex 8 0x73e9bd9426914f3b⟩, rfl⟩ } : State).micIn.toList.take 8 = hex 8 0x73e9bd9426914f3b ∧
    ({ State.reset with micIn := ⟨⟨hex 8 0x73e9bd9426914f3a⟩, rfl⟩ } : State).micIn.toList.take 8 = hex 8 0x73e9bd9426914f3a := by
  decide +kernel

/-- A length that fails and one that does not, for every row of R264. -/
theorem test_witness_LengthErrors :
    LengthFails .aes (lengths 15 0) ∧ ¬LengthFails .aes (lengths 16 0) ∧ ¬LengthFails .clear (lengths 0 0) ∧
    LengthFails .obf (lengths 0 0) ∧ ¬LengthFails .obf (lengths 1024 0) ∧ LengthFails (.ccmDec .m4) (lengths 1025 0) ∧
    ¬LengthFails (.ccmDec .m4) (lengths 0 0) ∧ LengthFails .k2 (lengths 1 0) ∧ ¬LengthFails .k2 (lengths 1 1) := by
  simp only [LengthFails]
  decide

/-- A command answers a next state, for the statements about every command (AuthErrorOnlyOnMicMismatch, CommandFrame). -/
theorem test_witness_exec : (∃ t, exec .clear State.reset = .next t) ∧ ∃ t, exec (.ccmDec .m4) (lengths 1025 0) = .next t :=
  ⟨⟨_, rfl⟩, _, rfl⟩

/-- Outputs zero, and a CCM_DEC that fails. -/
theorem test_witness_FailedDecryptionRevealsNothing :
    OutputsZero (lengths 1025 0) ∧ (nextState (exec (.ccmDec .m4) (lengths 1025 0))).map State.err = some true :=
  ⟨⟨rfl, rfl, rfl, fun _ _ => rfl⟩, by decide +kernel⟩

theorem test_witness_EveryCompletionScrubsInputs : (inProgress 0).phase = .busy ∧ (inProgress 0xFF).phase = .busy := by decide

/-- Two states that agree on what CMAC reads and differ in what it does not: LEN_B, BUF_B, IVINDEX and BUF_A beyond LEN_A. -/
def cmacLeft : State := { loaded 5 [1, 2] [] with lenA := 1 }
def cmacRight : State := { loaded 5 [1, 3] [4] with lenA := 1, ivindex := 7 }

theorem test_witness_CommandsReadOnlyTheirOperands :
    SameOperands .cmac cmacLeft cmacRight ∧ cmacLeft ≠ cmacRight ∧ Memory.wf cmacLeft.mem = true ∧ Memory.wf cmacRight.mem = true ∧
    OutputsZero cmacLeft ∧ OutputsZero cmacRight ∧ (∃ t, exec .cmac cmacLeft = .next t) ∧ ∃ t, exec .cmac cmacRight = .next t := by
  refine ⟨⟨rfl, rfl, fun i hi => ?_⟩, by decide +kernel, by decide +kernel, by decide +kernel, ⟨rfl, rfl, rfl, fun i hi => ?_⟩,
    ⟨rfl, rfl, rfl, fun i hi => ?_⟩, ⟨_, rfl⟩, _, rfl⟩
  · have h : i < 1 := hi
    interval_cases i
    decide +kernel
  · rw [show cmacLeft.mem = [(0x400, 1), (0x401, 2)] from by decide +kernel]
    simp only [Memory.get]
    rw [if_neg (by omega), if_neg (by omega)]
    rfl
  · rw [show cmacRight.mem = [(0x400, 1), (0x401, 3), (0x800, 4)] from by decide +kernel]
    simp only [Memory.get]
    rw [if_neg (by omega), if_neg (by omega), if_neg (by omega)]
    rfl

/-- The state after a command, taken back as the operands of its inverse. -/
def sentBack (s t : State) : State :=
  { s with mem := Memory.store [] 0x400 (Memory.load t.mem 0xC00 s.lenA.toNat), micIn := ⟨(t.result0.toList.take 8).toArray, by simp⟩ }

/-- One byte, encrypted with an 8-byte MIC. -/
theorem test_witness_CcmRoundTrip :
    ∃ t, exec (.ccmEnc .m8) (ccmOperands [0x20] 0) = .next t ∧ Memory.wf (ccmOperands [0x20] 0).mem = true ∧
      (sentBack (ccmOperands [0x20] 0) t).key = (ccmOperands [0x20] 0).key ∧
      (∀ i < 1, Memory.get (sentBack (ccmOperands [0x20] 0) t).mem (0x400 + i) = Memory.get t.mem (0xC00 + i)) ∧
      (sentBack (ccmOperands [0x20] 0) t).micIn.toList.take 8 = t.result0.toList.take 8 :=
  ⟨_, rfl, by decide +kernel, rfl, by decide +kernel, by decide +kernel⟩

/-- Seven bytes, so that one is copied. -/
theorem test_witness_ObfuscationInverse :
    ∃ t, exec .obf (obfOperands (hex 7 0x0b000001020399)) = .next t ∧
      Memory.wf (sentBack (obfOperands (hex 7 0x0b000001020399)) t).mem = true ∧
      ∀ i < 7, Memory.get (sentBack (obfOperands (hex 7 0x0b000001020399)) t).mem (0x400 + i) = Memory.get t.mem (0xC00 + i) :=
  ⟨_, rfl, by decide +kernel, by decide +kernel⟩

/-- Events of both kinds, each kind before the other, with fewer clock cycles than an AES is BUSY for and with all but one. -/
theorem test_witness_CompletionAfterLatency : callLatency.cycles 0x01 16 0 false = 2 ∧
    clockCount [.access (.write 0x020 4 0xFF)] < 2 ∧
    clockCount [.access (.write 0x004 4 0x02), .clock, .access (.read 0x050 4)] + 1 = 2 := by decide +kernel

/-- R112, R116: a CMD write in the busy window takes no cycle off the two of an AES and ends neither early nor late. -/
theorem test_busy_access_leaves_count :
    (match timedEvents callLatency [.clock, .access (.write 0x004 4 0x02), .access (.write 0x00C 1 0x04)]
        { core := inProgress 1, left := 2 } with
      | .next v => v.left == 1 && v.core.busy && v.core.cmdl == 1 && v.core.irq
      | _ => false) = true := by decide +kernel

/-- A LATENCY exists; two IDLE machines with the same lengths and different keys. -/
theorem test_witness_Latency : callLatency.cycles 0x07 1 1 false = 11 ∧ (loaded 1 [1] []).phase = .idle ∧
    (loaded 2 [3] []).phase = .idle ∧ (loaded 1 [1] []).lenA = (loaded 2 [3] []).lenA ∧ (loaded 1 [1] []).key ≠ (loaded 2 [3] []).key := by
  decide +kernel

/-- Two units; an address in the second, at both ends of its space. -/
theorem test_witness_PlatformUnitsShareNothing :
    (Platform.mk [⟨0x4000, State.reset⟩, ⟨0x5000, State.reset⟩]).units[1]? = some ⟨0x5000, State.reset⟩ ∧
    placedAt 0x5000 ⟨0x5000, State.reset⟩ = true ∧ placedAt 0x5FFF ⟨0x5000, State.reset⟩ = true ∧
    placedAt 0x5000 ⟨0x4000, State.reset⟩ = false ∧ placedAt 0x4FFF ⟨0x4000, State.reset⟩ = true := by decide +kernel

/-- A host at `wait`, IDLE and BUSY. -/
theorem test_witness_HostWaitsUntilNotBusy :
    ({ State.reset with hosts := [⟨[.wait], []⟩] } : State).hosts[0]? = some ⟨[.wait], []⟩ ∧
    ({ inProgress 1 with hosts := [⟨[], []⟩, ⟨[.wait], []⟩] } : State).hosts[1]? = some ⟨[.wait], []⟩ := by decide +kernel

end Sys2Proof.Tests
end

section
/-! SUPPORT. The invariant of the machine (spec/10_state.md R33, R45, R51): what carries it from one state to the next, and
that every step keeps it. -/

namespace Sys2Proof.Machine

/-! ### What the invariant needs -/

/-- The host agents and the schedule are no part of the invariant. -/
theorem State.Inv.withAgents {s : State} (h : s.Inv) (hs : List HostAgent) (sc : List Turn) :
    ({ s with hosts := hs, sched := sc } : State).Inv where
  memWf := h.memWf
  memRange := h.memRange
  notBoth := h.notBoth
  noError := h.noError
  anError := h.anError
  nid := h.nid
  busyStatus := h.busyStatus
  busyOutputs hp := have ho := h.busyOutputs hp; ⟨ho.result0, ho.result1, ho.result2, ho.bufO⟩
  busyLastop := h.busyLastop

/-- A change of no core field keeps the invariant if memory stays canonical, in the buffers and, while BUSY, as it was. -/
theorem State.Inv.of_sameCore {s t : State} (h : s.Inv) (hc : SameCore s t) (hwf : Memory.wf t.mem = true)
    (hrange : ∀ c ∈ t.mem, 0x400 ≤ c.1 ∧ c.1 < 0x1000) (hbusy : s.phase = .busy → t.mem = s.mem) : t.Inv where
  memWf := hwf
  memRange := hrange
  notBoth := by rw [hc.done, hc.err]; exact h.notBoth
  noError := by rw [hc.err, hc.errcode]; exact h.noError
  anError := by rw [hc.err, hc.errcode]; exact h.anError
  nid := by rw [hc.result2]; exact h.nid
  busyStatus := by rw [hc.phase, hc.done, hc.err]; exact h.busyStatus
  busyOutputs := by
    intro hp
    rw [hc.phase] at hp
    have ho := h.busyOutputs hp
    exact ⟨hc.result0 ▸ ho.result0, hc.result1 ▸ ho.result1, hc.result2 ▸ ho.result2, hbusy hp ▸ ho.bufO⟩
  busyLastop := by rw [hc.phase, hc.lastop, hc.cmdl]; exact h.busyLastop

/-- A cleared range leaves only cells that were there. -/
theorem memRange_clear {m : List Host.Cell} (h : ∀ c ∈ m, 0x400 ≤ c.1 ∧ c.1 < 0x1000) (lo hi : Nat) :
    ∀ c ∈ Memory.clear m lo hi, 0x400 ≤ c.1 ∧ c.1 < 0x1000 :=
  fun c hc => h c (Memory.mem_clear.1 hc).1

/-! ### Bus accesses -/

theorem inv_accept {s : State} (h : s.Inv) (w : Word) : (accept w s).Inv where
  memWf := wf_accept h.memWf w
  memRange := memRange_clear h.memRange _ _
  notBoth := by simp
  noError _ := rfl
  anError := by simp
  nid := by simp
  busyStatus _ := ⟨rfl, rfl⟩
  busyOutputs _ := outputsZero_accept w s
  busyLastop _ := rfl

theorem inv_overrun {s : State} (h : s.Inv) : (overrun s).Inv :=
  h.of_sameCore ⟨rfl, rfl, rfl, rfl, rfl, rfl, rfl, rfl, rfl, rfl, rfl⟩ h.memWf h.memRange fun _ => rfl

theorem inv_writeByte {s : State} (h : s.Inv) (off : Nat) (b : Byte) : (writeByte off b s).Inv := by
  refine h.of_sameCore (sameCore_writeByte off b s) (wf_writeByte h.memWf off b) ?_ ?_ <;>
    rcases writeByte_mem off b s with he | ⟨hlo, hhi, hidle, he⟩ <;> rw [he]
  · exact h.memRange
  · intro c hc
    rcases Memory.mem_set hc with rfl | hc
    · exact ⟨hlo, by simp only; omega⟩
    · exact h.memRange c hc
  · exact fun _ => rfl
  · intro hp
    rw [hidle] at hp
    cases hp

theorem inv_busAccess {s : State} (h : s.Inv) (a : Access) : (busAccess a s).1.Inv :=
  busAccess_induct (P := State.Inv) (fun w _ _ ht => inv_accept ht w) (fun _ ht => inv_overrun ht)
    (fun off _ b _ ht => inv_writeByte ht off b) a h

/-! ### Completions -/

/-- In an IDLE state the clauses about the busy window say nothing. -/
theorem State.Inv.of_idle {t : State} (hp : t.phase = .idle) (hwf : Memory.wf t.mem = true)
    (hrange : ∀ c ∈ t.mem, 0x400 ≤ c.1 ∧ c.1 < 0x1000) (hnot : ¬(t.done = true ∧ t.err = true))
    (hno : t.err = false → t.errcode = 0) (han : t.err = true → t.errcode = 1 ∨ t.errcode = 2 ∨ t.errcode = 3)
    (hnid : t.result2.msb = false) : t.Inv := by
  have hidle : t.phase ≠ .busy := by simp [hp]
  exact ⟨hwf, hrange, hnot, hno, han, hnid, (absurd · hidle), (absurd · hidle), (absurd · hidle)⟩

theorem inv_takeError {s : State} (h : s.Inv) (c : ErrCode) : (takeError c s).Inv := by
  refine .of_idle rfl (Memory.wf_clear h.memWf _ _) (memRange_clear h.memRange _ _) (by simp) (by simp) (fun _ => ?_) h.nid
  cases c with
  | length => exact .inl rfl
  | auth => exact .inr (.inl rfl)
  | opcode => exact .inr (.inr rfl)

theorem inv_finish {s : State} (h : s.Inv) (r0 r1 : Block) {r2 : Byte} {o : List Byte} (ho : o.length ≤ 1024)
    (hr2 : r2.msb = false) : (finish r0 r1 r2 o s).Inv := by
  refine .of_idle rfl (wf_complete h.memWf (.ok r0 r1 r2 o)) (memRange_clear (fun c hc => ?_) _ _) (by simp) (fun _ => rfl)
    (by simp) hr2
  rcases Memory.mem_store hc with hin | hc
  · simp only [bufOBase] at hin
    omega
  · exact h.memRange c hc

theorem inv_exec {s t : State} (h : s.Inv) {i : Instr} (he : exec i s = .next t) : t.Inv := by
  rcases exec_cases he with ⟨r0, r1, r2, o, hr, rfl⟩ | ⟨c, -, rfl⟩
  · obtain ⟨-, ho, hr2⟩ := resultOf_ok hr
    exact inv_finish h r0 r1 ho hr2
  · exact inv_takeError h c

/-! ### Turns -/

theorem inv_reset : State.reset.Inv :=
  .of_idle rfl reset_mem_wf (by simp [State.reset]) (by simp [State.reset]) (fun _ => rfl) (by simp [State.reset]) rfl

theorem inv_engineTurn {s t : State} (h : s.Inv) (he : engineTurn s = .next t) : t.Inv := by
  rcases engineTurn_cases s with ⟨-, hs⟩ | ⟨-, i, -, hs⟩ | ⟨-, e, -, hs⟩ <;> rw [hs] at he
  · cases he
    exact h
  · exact inv_exec h he
  · cases he
    exact inv_takeError h .opcode

/-- A host's turn does nothing, or is one bus access and a new record of the host. -/
theorem hostTurn_cases (k : Nat) (s : State) :
    hostTurn k s = s ∨ ∃ a hs, hostTurn k s = { (busAccess a s).1 with hosts := hs } := by
  cases hk : s.hosts[k]? with
  | none => exact .inl (by simp only [hostTurn, hk])
  | some h =>
    cases hscr : h.script with
    | nil => exact .inl (by simp only [hostTurn, hk, hscr])
    | cons op rest => exact .inr ⟨HostOp.toAccess op, _, by simp only [hostTurn, hk, hscr]; rfl⟩

theorem inv_hostTurn {s : State} (h : s.Inv) (k : Nat) : (hostTurn k s).Inv := by
  rcases hostTurn_cases k s with he | ⟨a, hs, he⟩ <;> rw [he]
  · exact h
  · exact (inv_busAccess h a).withAgents hs _

theorem inv_takeTurn {s t : State} (h : s.Inv) {u : Turn} (he : takeTurn u s = .next t) : t.Inv := by
  cases u with
  | host k =>
    cases he
    exact inv_hostTurn h k
  | engine => exact inv_engineTurn h he
  | reset =>
    cases he
    exact inv_reset.withAgents s.hosts s.sched

/-- A step is one turn, the schedule possibly moved on. -/
theorem step_cases (s : State) : ∃ u sc, step s = takeTurn u { s with sched := sc } := by
  cases hs : s.sched with
  | nil => exact ⟨defaultTurn s, s.sched, by simp only [step, nextTurn, hs]; rw [← hs]⟩
  | cons u rest => exact ⟨u, rest, by simp only [step, nextTurn, hs]⟩

/-- Settles O10: whichever agent moves, its operation keeps every clause. -/
theorem stepKeepsInvariant : Obligations.StepKeepsInvariant := by
  intro s t h he
  obtain ⟨u, sc, hu⟩ := step_cases s
  exact inv_takeTurn (h.withAgents s.hosts sc) (hu ▸ he)

end Sys2Proof.Machine
end

section
/-! SUPPORT. The frame of a command (spec/30_encoding.md R113, R114; spec/60_exceptions.md R270). -/

namespace Sys2Proof.Machine

/-- A successful completion leaves every byte outside the input buffers and the string it writes to BUF_O. -/
theorem get_finish_frame (r0 r1 : Block) (r2 : Byte) (o : List Byte) (s : State) {a : Nat}
    (h : a < 0x400 ∨ 0xC00 + o.length ≤ a) : Memory.get (finish r0 r1 r2 o s).mem a = Memory.get s.mem a := by
  rw [finish_mem, Memory.get_clear_out _ (by omega), Memory.get_store_out _ _ _ (by simp only [bufOBase]; omega)]

/-- A failed completion leaves every byte outside the input buffers. -/
theorem get_takeError_frame (c : ErrCode) (s : State) {a : Nat} (h : a < 0x400 ∨ 0xC00 ≤ a) :
    Memory.get (takeError c s).mem a = Memory.get s.mem a := by
  rw [takeError_mem, Memory.get_clear_out _ (by omega)]

/-- Settles O51: a command ends in one of the two completions, and the length of its BUF_O string is fixed by its result. -/
theorem commandFrame : Obligations.CommandFrame := by
  intro i s t he
  rcases exec_cases he with ⟨r0, r1, r2, o, hr, rfl⟩ | ⟨c, -, rfl⟩
  · obtain ⟨hlen, -, -⟩ := resultOf_ok hr
    exact ⟨rfl, rfl, rfl, rfl, rfl, .inl rfl, fun a ha => get_finish_frame r0 r1 r2 o s (hlen ▸ ha)⟩
  · exact ⟨rfl, rfl, rfl, rfl, rfl, .inr rfl, fun a ha => get_takeError_frame c s (by omega)⟩

end Sys2Proof.Machine
end

section
/-! SUPPORT. Registers seen over the bus (spec/10_state.md R31 to R48; spec/20_memory.md R71 to R78): accesses by the row of the
address map they start in. -/

namespace Sys2Proof.Machine

/-! ### Accesses by row -/

/-- A legal access that starts in a range whose end is aligned to 4 stays in it: no such access crosses a row (R71, R72). -/
theorem offset_le_of_wellFormed {a : Access} (hw : a.wellFormed = true) {hi : Nat} (hal : hi % 4 = 3)
    (hle : a.offset ≤ hi) : ∀ i < a.width, a.offset + i ≤ hi := by
  obtain ⟨hn, hmod, -⟩ := wellFormed_bounds hw
  generalize a.width = n at *
  intro i hi
  rcases hn with rfl | rfl | rfl <;> omega

/-- The rules of R72 and R77 are all that makes an access legal. -/
theorem wellFormed_of_bounds {a : Access} (hn : a.width = 1 ∨ a.width = 2 ∨ a.width = 4) (hmod : a.offset % a.width = 0)
    (hle : a.offset + a.width ≤ 0x1000) (hcmd : a.narrowCmdWrite = false) : a.wellFormed = true := by
  simp [Access.wellFormed, hn, hmod, hle, hcmd]

/-- A one-byte write outside the busy window stores its byte (R74). -/
theorem busAccess_write1_row {q : MapRow} (hq : q ∈ addressMap) {i : Nat} (hi : q.first + i ≤ q.last) (v : Word) {s : State}
    (hidle : s.phase = .idle) (hcmd : q.contents ≠ .cmd) :
    busAccess (.write (q.first + i) 1 v) s = (putByte q.contents i (v.extractLsb' 0 8) s, .written) := by
  have hb : q.first + i < 0x1000 ∧ (q.first + i < 4 ∨ 7 < q.first + i) := by
    fin_cases hq <;> simp at hi hcmd ⊢ <;> omega
  rw [busAccess_write1 v s hb.1 hb.2, writeByte_row hq ⟨Nat.le_add_right .., hi⟩ _ s (.inr hidle), Nat.add_sub_cancel_left]
  rfl

/-- A one-byte read outside the busy window of the outputs returns the stored byte (R74). -/
theorem busAccess_read1_row {q : MapRow} (hq : q ∈ addressMap) {i : Nat} (hi : q.first + i ≤ q.last) (s : State)
    (hc : q.cls ≠ .output ∨ s.phase = .idle) :
    busAccess (.read (q.first + i) 1) s = (s, .data ((storedByte s q.contents i).setWidth 32)) := by
  have hb : q.first + i < 0x1000 := by fin_cases hq <;> simp at hi ⊢ <;> omega
  rw [busAccess_read1 s hb, readByte_row hq ⟨Nat.le_add_right .., hi⟩ s hc, Nat.add_sub_cancel_left]

/-- A legal write to bytes of a control register that ignore every byte is served and changes nothing. -/
theorem busAccess_write_ignored {q : MapRow} (hq : q ∈ addressMap) (hal : q.last % 4 = 3) (hc : q.cls ≠ .input)
    {off n : Nat} {v : Word} {s : State} (hw : (Access.write off n v).wellFormed = true) (h4 : off ≠ 4)
    (hb : q.first ≤ off ∧ off ≤ q.last)
    (hput : ∀ i b, off - q.first ≤ i → i ≤ q.last - q.first → putByte q.contents i b s = s) :
    busAccess (.write off n v) s = (s, .written) := by
  rw [busAccess_write_bytes hw h4, writeBytes_id v fun i hi b => ?_]
  have hle : off + i ≤ q.last := offset_le_of_wellFormed hw hal hb.2 i hi
  rw [writeByte_row hq (by omega) b s (.inl hc), hput _ b (by omega) (by omega)]

/-! ### KEY -/

/-- Settles O22: a legal access that starts in KEY stays in KEY, where every byte reads 0. -/
theorem keyReadsZero : Obligations.KeyReadsZero := by
  intro s off n hw hlo hhi
  rw [busAccess_read hw, readBytes_zero fun i hi => ?_]
  have hle : off + i ≤ 0x02F := offset_le_of_wellFormed hw rfl hhi i hi
  exact readByte_row (q := ⟨0x020, 0x02F, .key, .input, .wo⟩) (by decide) ⟨Nat.le_add_right_of_le hlo, hle⟩ s (.inl (by decide))

theorem storedByte_key (s : State) (k : Vector Byte 16) (c : Contents) (i : Nat) :
    storedByte { s with key := k } c i = storedByte s c i := by
  cases c <;> rfl

theorem readByte_key (s : State) (k : Vector Byte 16) (off : Nat) :
    readByte { s with key := k } off = readByte s off := by
  simp only [readByte, storedByte_key]
  rfl

theorem readBytes_key (s : State) (k : Vector Byte 16) (off n : Nat) :
    readBytes { s with key := k } off n = readBytes s off n := by
  induction n with
  | zero => rfl
  | succ n ih => rw [readBytes, readBytes, ih, readByte_key]

/-- Settles O23: a refusal and a served write answer without the state, and a read is made of bytes that do not see KEY. -/
theorem responsesDoNotDependOnKey : Obligations.ResponsesDoNotDependOnKey := by
  intro s k a
  by_cases hw : a.wellFormed = true
  · cases a with
    | read off n => rw [busAccess_read hw, busAccess_read hw, readBytes_key]
    | write off n v => rw [busAccess_write hw, busAccess_write hw]
  · rw [Bool.not_eq_true] at hw
    rw [busAccess_refused hw, busAccess_refused hw]

/-! ### ID and STATUS -/

/-- STATUS bit by bit (R33). -/
theorem getLsbD_statusWord (s : State) {i : Nat} (hi : i < 32) : s.statusWord.getLsbD i =
    if i = 0 then s.busy else if i = 1 then s.done else if i = 2 then s.err else if i < 4 then false
    else if i < 8 then s.errcode.getLsbD (i - 4) else if i < 16 then false
    else if i < 24 then s.lastop.getLsbD (i - 16) else false := by
  change (0#8 ++ s.lastop ++ 0#8 ++ s.errcode ++ 0#1 ++ BitVec.ofBool s.err ++ BitVec.ofBool s.done ++
    BitVec.ofBool s.busy).getLsbD i = _
  simp only [BitVec.getLsbD_append]
  interval_cases i <;> simp

/-- The fields of STATUS (R33). -/
theorem statusWord_fields (s : State) :
    s.statusWord.extractLsb' 4 4 = s.errcode ∧ s.statusWord.extractLsb' 8 8 = 0 ∧
      s.statusWord.extractLsb' 16 8 = s.lastop ∧ s.statusWord.extractLsb' 24 8 = 0 := by
  refine ⟨?_, ?_, ?_, ?_⟩ <;>
  · apply BitVec.eq_of_getLsbD_eq
    intro i hi
    rw [BitVec.getLsbD_extractLsb', getLsbD_statusWord s (by omega)]
    interval_cases i <;> simp

/-- Settles O25: both are registers of the control class whose bytes ignore every write. -/
theorem idAndStatusWords : Obligations.IdAndStatusWords := by
  intro s
  refine ⟨?_, fun off n v hw hoff => ?_, s.statusWord, ?_, ?_⟩
  · rw [busAccess_read_register (q := ⟨0x000, 0x003, .id, .control, .ro⟩) (by decide) rfl s (by decide) rfl fun i _ => rfl]
    rfl
  · rcases hoff with hid | hst
    · exact busAccess_write_ignored (q := ⟨0x000, 0x003, .id, .control, .ro⟩) (by decide) rfl (by decide) hw (by omega)
        ⟨Nat.zero_le _, hid⟩ fun _ _ _ _ => rfl
    · exact busAccess_write_ignored (q := ⟨0x008, 0x00B, .status, .control, .ro⟩) (by decide) rfl (by decide) hw (by omega)
        hst fun _ _ _ _ => rfl
  · rw [busAccess_read_register (q := ⟨0x008, 0x00B, .status, .control, .ro⟩) (by decide) rfl s (by decide) rfl fun i _ => rfl]
  · obtain ⟨herrcode, hlow, hlastop, hhigh⟩ := statusWord_fields s
    exact ⟨by rw [getLsbD_statusWord s (by decide), if_pos rfl, busy_iff], getLsbD_statusWord s (by decide),
      getLsbD_statusWord s (by decide), getLsbD_statusWord s (by decide), herrcode, hlow, hlastop, hhigh⟩

/-! ### INTEN and INTFLAG -/

/-- A field in bits [2:0] of a word lies in its byte 0. -/
theorem setWidth3_eq_lane0 (v : Word) : v.setWidth 3 = (laneOf v 0).setWidth 3 := by
  apply BitVec.eq_of_getLsbD_eq
  intro i hi
  interval_cases i <;> simp [laneOf]

/-- A write to byte 0 gives the field the byte's bits, a write to another byte leaves it. -/
theorem setWidth3_setLane (v : Word) {i : Nat} (hi : i < 4) (b : Byte) :
    (setLane v i b).setWidth 3 = if i = 0 then b.setWidth 3 else v.setWidth 3 := by
  rw [setWidth3_eq_lane0, setWidth3_eq_lane0 v]
  split
  · next h => rw [h, laneOf_setLane_eq v (by decide)]
  · next h => rw [laneOf_setLane_ne v hi (by decide) h]

theorem putByte_inten_zero (b : Byte) (s : State) : putByte .inten 0 b s = { s with inten := b.setWidth 3 } := by
  simp only [putByte, setWidth3_setLane _ (by decide : 0 < 4), if_true]

theorem putByte_inten_high {i : Nat} (h0 : 1 ≤ i) (h4 : i < 4) (b : Byte) (s : State) : putByte .inten i b s = s := by
  have hself : s.intenWord.setWidth 3 = s.inten := by simp [State.intenWord]
  simp only [putByte, setWidth3_setLane _ h4, Nat.one_le_iff_ne_zero.1 h0, if_false, hself]

theorem putByte_intflag_zero (b : Byte) (s : State) : putByte .intflag 0 b s = clearFlags (b.setWidth 3) s := by
  simp only [putByte, setWidth3_setLane _ (by decide : 0 < 4), if_true]

theorem putByte_intflag_high {i : Nat} (h0 : 1 ≤ i) (h4 : i < 4) (b : Byte) (s : State) : putByte .intflag i b s = s := by
  have hnone : s.intflag &&& ~~~(0 : Word).setWidth 3 = s.intflag := BitVec.and_allOnes
  simp only [putByte, setWidth3_setLane _ h4, Nat.one_le_iff_ne_zero.1 h0, if_false, clearFlags, hnone]

/-- Bytes that ignore every write after the first leave the first byte's write. -/
theorem writeBytes_first {off n : Nat} (v : Word) (hn : 1 ≤ n)
    (hrest : ∀ i, 1 ≤ i → i < n → ∀ b t, writeByte (off + i) b t = t) (s : State) :
    writeBytes off v n s = writeByte off (laneOf v 0) s := by
  induction n, hn using Nat.le_induction with
  | base => rfl
  | succ n hn ih => rw [writeBytes, hrest n hn (Nat.lt_succ_self n), ih fun i h1 hi => hrest i h1 (Nat.lt_succ_of_lt hi)]

/-- A write of 1, 2 or 4 bytes to a control register that has storage in byte 0 alone stores byte 0. -/
theorem busAccess_write_byte0 {q : MapRow} (hq : q ∈ addressMap) (hl : q.last = q.first + 3) (hc : q.cls = .control)
    (hal : q.first % 4 = 0) (hcmd : q.contents ≠ .cmd)
    (hput : ∀ i b t, 1 ≤ i → i < 4 → putByte q.contents i b t = t) {n : Nat} (hn : n = 1 ∨ n = 2 ∨ n = 4) (v : Word)
    (s : State) : busAccess (.write q.first n v) s = (putByte q.contents 0 (laneOf v 0) s, .written) := by
  have hin : q.cls ≠ .input := by simp [hc]
  have hb : q.first + 4 ≤ 0x1000 ∧ (q.first < 4 ∨ 7 < q.first) := by
    fin_cases hq <;> simp at hal hc hcmd ⊢
  have hw : (Access.write q.first n v).wellFormed = true := by
    refine wellFormed_of_bounds hn ?_ ?_ ?_ <;> simp only [Access.width, Access.offset, Access.narrowCmdWrite]
    · rcases hn with rfl | rfl | rfl <;> omega
    · omega
    · simp only [decide_eq_false_iff_not]
      omega
  have hrest : ∀ i, 1 ≤ i → i < n → ∀ b t, writeByte (q.first + i) b t = t := by
    intro i h1 hi b t
    rw [writeByte_row hq (by omega) b t (.inl hin), Nat.add_sub_cancel_left, hput i b t h1 (by omega)]
  rw [busAccess_write_bytes hw (by omega), writeBytes_first v (by omega) hrest, writeByte_row hq (by omega) _ s (.inl hin),
    Nat.sub_self]

/-- Settles O26: INTEN has storage in bits [2:0] of its first byte alone. -/
theorem intenWrites : Obligations.IntenWrites := by
  intro s n v hn
  have hq : (⟨0x00C, 0x00F, .inten, .control, .rw⟩ : MapRow) ∈ addressMap := by decide
  refine ⟨?_, fun off hlo hhi hw => ?_, busAccess_read_register hq rfl s (by decide) rfl fun i _ => rfl⟩
  · rw [busAccess_write_byte0 hq rfl rfl rfl (by decide) (fun i b t h0 h4 => putByte_inten_high h0 h4 b t) hn,
      putByte_inten_zero, ← setWidth3_eq_lane0]
  · exact busAccess_write_ignored hq rfl (by decide) hw (by omega) ⟨hlo.le, hhi⟩ fun i b h1 h2 =>
      putByte_inten_high (by simp only at h1; omega) (by simp only at h2; omega) b s

/-- Settles O27: INTFLAG clears the flags its first byte names; its other bytes name none. -/
theorem intflagWriteOneToClear : Obligations.IntflagWriteOneToClear := by
  intro s n v hn
  have hq : (⟨0x010, 0x013, .intflag, .control, .w1c⟩ : MapRow) ∈ addressMap := by decide
  refine ⟨⟨s.intflag &&& ~~~v.setWidth 3, ?_, fun b hb => ?_⟩, fun off hlo hhi hw => ?_,
    busAccess_read_register hq rfl s (by decide) rfl fun i _ => rfl⟩
  · rw [busAccess_write_byte0 hq rfl rfl rfl (by decide) (fun i b t h0 h4 => putByte_intflag_high h0 h4 b t) hn,
      putByte_intflag_zero, ← setWidth3_eq_lane0]
    rfl
  · simp [hb]
  · exact busAccess_write_ignored hq rfl (by decide) hw (by omega) ⟨hlo.le, hhi⟩ fun i b h1 h2 =>
      putByte_intflag_high (by simp only at h1; omega) (by simp only at h2; omega) b s

/-- Settles O28: IRQ is the OR over the three flags. -/
theorem irqIsAnEnabledFlag : Obligations.IrqIsAnEnabledFlag := by
  refine ⟨fun s => ?_, fun s t he hf => by simp only [State.irq, he, hf]⟩
  simp only [State.irq, Bool.or_eq_true, Bool.and_eq_true]
  constructor
  · rintro ((h | h) | h)
    · exact ⟨0, by decide, h⟩
    · exact ⟨1, by decide, h⟩
    · exact ⟨2, by decide, h⟩
  · rintro ⟨b, hb, h⟩
    interval_cases b
    · exact .inl (.inl h)
    · exact .inl (.inr h)
    · exact .inr h

/-! ### LEN_A, LEN_B and IVINDEX -/

/-- A word written lane by lane (R73). -/
theorem setLane_all (x v : Word) :
    setLane (setLane (setLane (setLane x 0 (laneOf v 0)) 1 (laneOf v 1)) 2 (laneOf v 2)) 3 (laneOf v 3) = v := by
  refine word_ext_lanes fun i hi => ?_
  interval_cases i <;> simp [laneOf_setLane_eq, laneOf_setLane_ne]

/-- Bits [15:0] of a lane write are those of the write to bits [15:0]. -/
theorem setWidth16_setLane (x : Word) (i : Nat) (b : Byte) :
    (setLane ((x.setWidth 16).setWidth 32) i b).setWidth 16 = (setLane x i b).setWidth 16 := by
  apply BitVec.eq_of_getLsbD_eq
  intro j hj
  simp [setLane, hj]

/-- A 32-bit write to an input register while IDLE stores its four bytes, lane 0 first (R73). -/
theorem busAccess_write_register {q : MapRow} (hq : q ∈ addressMap) (hl : q.last = q.first + 3) (hc : q.cls = .input)
    (hal : q.first % 4 = 0) (v : Word) {s : State} (hidle : s.phase = .idle) :
    busAccess (.write q.first 4 v) s =
      (putByte q.contents 3 (laneOf v 3) (putByte q.contents 2 (laneOf v 2)
        (putByte q.contents 1 (laneOf v 1) (putByte q.contents 0 (laneOf v 0) s))), .written) := by
  have hb : q.first + 4 ≤ 0x1000 ∧ q.first ≠ 4 := by fin_cases hq <;> simp at hal hc ⊢
  have hw : (Access.write q.first 4 v).wellFormed = true :=
    wellFormed_of_bounds (.inr (.inr rfl)) hal hb.1 (by simp [Access.narrowCmdWrite])
  have hbyte : ∀ i < 4, ∀ b t, t.phase = .idle → writeByte (q.first + i) b t = putByte q.contents i b t := by
    intro i hi b t ht
    rw [writeByte_row hq (by omega) b t (.inr ht), Nat.add_sub_cancel_left]
  rw [busAccess_write_bytes hw hb.2]
  simp only [writeBytes]
  rw [hbyte 0, hbyte 1, hbyte 2, hbyte 3] <;> simp [hidle]

/-- Settles O29: the four byte writes together give the register the whole word, cut to its width. -/
theorem lengthAndIvRegisters : Obligations.LengthAndIvRegisters := by
  intro s v hidle
  have hA : (⟨0x014, 0x017, .lenA, .input, .rw⟩ : MapRow) ∈ addressMap := by decide
  have hB : (⟨0x018, 0x01B, .lenB, .input, .rw⟩ : MapRow) ∈ addressMap := by decide
  have hI : (⟨0x01C, 0x01F, .ivindex, .input, .rw⟩ : MapRow) ∈ addressMap := by decide
  refine ⟨?_, ?_, ?_, busAccess_read_register hA rfl s (by decide) rfl fun i _ => rfl,
    busAccess_read_register hB rfl s (by decide) rfl fun i _ => rfl,
    busAccess_read_register hI rfl s (by decide) rfl fun i _ => rfl⟩
  · rw [busAccess_write_register hA rfl rfl rfl v hidle]
    simp only [putByte, setWidth16_setLane, setLane_all]
  · rw [busAccess_write_register hB rfl rfl rfl v hidle]
    simp only [putByte, setWidth16_setLane, setLane_all]
  · rw [busAccess_write_register hI rfl rfl rfl v hidle]
    simp only [putByte, setLane_all]

/-! ### Byte strings, buffers and outputs -/

/-- Settles O31: each byte of a byte string is one element (R74). -/
theorem byteStringRegisters : Obligations.ByteStringRegisters := by
  have hkey : (⟨0x020, 0x02F, .key, .input, .wo⟩ : MapRow) ∈ addressMap := by decide
  have hnonce : (⟨0x030, 0x03C, .nonce, .input, .rw⟩ : MapRow) ∈ addressMap := by decide
  have hprand : (⟨0x040, 0x046, .prand, .input, .rw⟩ : MapRow) ∈ addressMap := by decide
  have hmic : (⟨0x048, 0x04F, .micIn, .input, .rw⟩ : MapRow) ∈ addressMap := by decide
  refine ⟨fun s i v hidle => ⟨fun h => ?_, fun h => ?_, fun h => ?_, fun h => ?_⟩,
    fun s i => ⟨fun h => ?_, fun h => ?_, fun h => ?_⟩⟩
  · exact busAccess_write1_row hkey (by simp only; omega) v hidle (by decide)
  · exact busAccess_write1_row hnonce (by simp only; omega) v hidle (by decide)
  · exact busAccess_write1_row hprand (by simp only; omega) v hidle (by decide)
  · exact busAccess_write1_row hmic (by simp only; omega) v hidle (by decide)
  · simpa [storedByte, h] using busAccess_read1_row hnonce (i := i) (by simp only; omega) s (.inl (by decide))
  · simpa [storedByte, h] using busAccess_read1_row hprand (i := i) (by simp only; omega) s (.inl (by decide))
  · simpa [storedByte, h] using busAccess_read1_row hmic (i := i) (by simp only; omega) s (.inl (by decide))

/-- A one-byte access to BUF_A or BUF_B while IDLE is one to memory at its offset (R46, R47). -/
theorem busAccess_buffer {a : Nat} (hlo : 0x400 ≤ a) (hhi : a < 0xC00) (v : Word) {s : State} (hidle : s.phase = .idle) :
    busAccess (.write a 1 v) s = ({ s with mem := Memory.set s.mem a (v.extractLsb' 0 8) }, .written) ∧
      busAccess (.read a 1) s = (s, .data ((Memory.get s.mem a).setWidth 32)) := by
  by_cases ha : a < 0x800
  · have hq : (⟨0x400, 0x7FF, .bufA, .input, .rw⟩ : MapRow) ∈ addressMap := by decide
    obtain ⟨i, rfl⟩ := Nat.exists_eq_add_of_le hlo
    exact ⟨busAccess_write1_row hq (by simp only; omega) v hidle (by decide),
      busAccess_read1_row hq (by simp only; omega) s (.inr hidle)⟩
  · have hq : (⟨0x800, 0xBFF, .bufB, .input, .rw⟩ : MapRow) ∈ addressMap := by decide
    obtain ⟨i, rfl⟩ := Nat.exists_eq_add_of_le (not_lt.1 ha)
    exact ⟨busAccess_write1_row hq (by simp only; omega) v hidle (by decide),
      busAccess_read1_row hq (by simp only; omega) s (.inr hidle)⟩

/-- Settles O32, by the laws of a memory write. -/
theorem bufferBytes : Obligations.BufferBytes := by
  intro s a v hwf hidle hlo hhi
  obtain ⟨hwrite, hread⟩ := busAccess_buffer hlo hhi v hidle
  exact ⟨_, hwrite, Memory.get_set_eq hwf a _, fun b hb => Memory.get_set_ne _ _ hb, Memory.wf_set hwf a _, hread⟩

/-- Settles O33: while IDLE an output byte reads as it is stored. -/
theorem outputBytesReadWhileIdle : Obligations.OutputBytesReadWhileIdle := by
  intro s i hidle
  have hr0 : (⟨0x050, 0x05F, .result0, .output, .ro⟩ : MapRow) ∈ addressMap := by decide
  have hr1 : (⟨0x060, 0x06F, .result1, .output, .ro⟩ : MapRow) ∈ addressMap := by decide
  have hr2 : (⟨0x070, 0x070, .result2, .output, .ro⟩ : MapRow) ∈ addressMap := by decide
  have hbufO : (⟨0xC00, 0xFFF, .bufO, .output, .ro⟩ : MapRow) ∈ addressMap := by decide
  refine ⟨fun h => ⟨?_, ?_⟩, ?_, fun h => ?_⟩
  · simpa [storedByte, h] using busAccess_read1_row hr0 (i := i) (by simp only; omega) s (.inr hidle)
  · simpa [storedByte, h] using busAccess_read1_row hr1 (i := i) (by simp only; omega) s (.inr hidle)
  · exact busAccess_read1_row hr2 (i := 0) le_rfl s (.inr hidle)
  · exact busAccess_read1_row hbufO (by simp only; omega) s (.inr hidle)

end Sys2Proof.Machine
end

section
/-! SUPPORT. The bus rules of spec/20_memory.md R72, R73, R77 and R83: what an access can do, which accesses are refused, that a
wider access is its one-byte accesses, and that a read has no side effect. -/

namespace Sys2Proof.Machine

/-! ### Legal and refused accesses -/

/-- A legal write at CMD is 4 bytes wide (R77). -/
theorem width_of_wellFormed_cmd {n : Nat} {v : Word} (hw : (Access.write 4 n v).wellFormed = true) : n = 4 := by
  simp [Access.wellFormed, Access.narrowCmdWrite] at hw
  omega

/-- What a bus access can do to the state: nothing, a command accepted or overrun, or the byte writes of a write elsewhere. -/
theorem busAccess_cases (a : Access) (s : State) :
    (busAccess a s).1 = s ∨
      (∃ w, a = .write 4 4 w ∧ (busAccess a s).1 = cmdWrite w s) ∨
      ∃ off n v, a = .write off n v ∧ off ≠ 4 ∧ (busAccess a s).1 = writeBytes off v n s := by
  by_cases hw : a.wellFormed = true
  · cases a with
    | read off n => exact .inl (by rw [busAccess_read hw])
    | write off n v =>
      by_cases h4 : off = 4
      · subst h4
        obtain rfl := width_of_wellFormed_cmd hw
        exact .inr (.inl ⟨v, rfl, by rw [busAccess_write hw, deliverWrite, if_pos rfl]⟩)
      · exact .inr (.inr ⟨off, n, v, rfl, h4, by rw [busAccess_write_bytes hw h4]⟩)
  · exact .inl (by rw [busAccess_refused (by simpa using hw)])

/-- A legal access is served. -/
theorem busAccess_ne_busError {a : Access} (hw : a.wellFormed = true) (s : State) :
    (busAccess a s).2 ≠ .fault .busError := by
  cases a with
  | read off n => rw [busAccess_read hw]; exact BusResponse.noConfusion
  | write off n v => rw [busAccess_write hw]; exact BusResponse.noConfusion

/-- Settles O16: what R72 forbids is not legal, and the rest is but for a narrow CMD write. -/
theorem busErrorExactlyOnForbiddenAccess : Obligations.BusErrorExactlyOnForbiddenAccess := by
  refine fun a s => ⟨fun hbad => busAccess_refused (Bool.eq_false_iff.2 fun hw => ?_) s,
    fun hn hmod hle hcmd => busAccess_ne_busError (wellFormed_of_bounds hn hmod hle hcmd) s⟩
  obtain ⟨hn, hmod, hle⟩ := wellFormed_bounds hw
  omega

/-- Settles O17: a read is refused, or answers with data. -/
theorem readsChangeNothing : Obligations.ReadsChangeNothing := by
  intro s off n
  by_cases hw : (Access.read off n).wellFormed = true
  · rw [busAccess_read hw]
  · rw [busAccess_refused (by simpa using hw)]

/-! ### Wide accesses byte by byte -/

/-- The one-byte writes of an n-byte write, lane 0 first (R73). -/
def byteWrites (off : Nat) (v : Word) (n : Nat) : List Access :=
  (List.range n).map fun i => .write (off + i) 1 ((laneOf v i).setWidth 32)

theorem byteWrites_succ (off : Nat) (v : Word) (n : Nat) :
    byteWrites off v (n + 1) = byteWrites off v n ++ [.write (off + n) 1 ((laneOf v n).setWidth 32)] := by
  simp [byteWrites, List.range_succ]

theorem accesses_append (as bs : List Access) (s : State) : accesses (as ++ bs) s = accesses bs (accesses as s) := by
  induction as generalizing s with
  | nil => rfl
  | cons a as ih => exact ih _

/-- Away from CMD the one-byte writes store the bytes that the n-byte write stores. -/
theorem accesses_byteWrites {off n : Nat} (v : Word) (hle : off + n ≤ 0x1000) (hcmd : ∀ i < n, off + i < 4 ∨ 7 < off + i)
    (s : State) : accesses (byteWrites off v n) s = writeBytes off v n s := by
  induction n with
  | zero => rfl
  | succ n ih =>
    rw [byteWrites_succ, accesses_append, ih (by omega) fun i hi => hcmd i (by omega), accesses, accesses,
      busAccess_write1 _ _ (by omega) (hcmd n (by omega)), laneOf_setWidth, writeBytes]

/-- A legal write that issues no command is its one-byte writes (R73). -/
theorem busAccess_write_eq_accesses {off n : Nat} {v : Word} (hw : (Access.write off n v).wellFormed = true) (h4 : off ≠ 4)
    (s : State) : (busAccess (.write off n v) s).1 = accesses (byteWrites off v n) s := by
  have hle : off + n ≤ 0x1000 := (wellFormed_bounds hw).2.2
  rw [busAccess_write_bytes hw h4, accesses_byteWrites v hle (wellFormed_not_cmd hw h4)]

/-- Settles O18: a legal write not at CMD is its byte writes, and a read is built lane by lane. -/
theorem wordAccessIsItsByteAccesses : Obligations.WordAccessIsItsByteAccesses := by
  refine ⟨fun s off v hw => ?_, fun s off v hw h4 => busAccess_write_eq_accesses hw h4 s, fun s off n hw => ?_⟩
  · have h4 : off ≠ 4 := by
      rintro rfl
      exact absurd (width_of_wellFormed_cmd hw) (by decide)
    exact busAccess_write_eq_accesses hw h4 s
  · obtain ⟨hn, -, hle⟩ := wellFormed_bounds hw
    simp only [Access.width, Access.offset] at hn hle
    have hlane := fun i (hi : i < 4) => laneOf_readBytes s off (n := n) (by omega) hi
    refine ⟨readBytes s off n, by rw [busAccess_read hw], fun i hi => ?_, fun i hi hni => ?_⟩
    · have hbyte : laneOf (readBytes s off n) i = readByte s (off + i) := by rw [hlane i (by omega), if_pos hi]
      rw [busAccess_read1 s (by omega), ← hbyte]
      rfl
    · exact (hlane i hi).trans (if_neg (by omega))

end Sys2Proof.Machine
end

section
/-! SUPPORT. The address map and its access classes (spec/20_memory.md R71, R76 to R81): bytes that read 0, bytes that ignore
writes, and the busy window. -/

namespace Sys2Proof.Machine

/-- Settles O19: rows lie apart, and their classes are the ranges of R79. -/
theorem addressMapIsAPartition : Obligations.AddressMapIsAPartition := by
  intro off hoff
  obtain ⟨r, hr⟩ := rowOf_some hoff
  obtain ⟨hm, hb⟩ := rowOf_bounds hr
  obtain ⟨hin, hout⟩ := rowOf_class hr
  refine ⟨r, hm, hb, fun q hq hqb => (rowOf_unique hr hq hqb).symm, ?_, hin, hout⟩
  have hctl : r.cls = .control ↔ ¬InputOffset off ∧ ¬OutputOffset off := by
    rw [← hin, ← hout]
    cases r.cls <;> decide
  rw [hctl]
  simp only [InputOffset, OutputOffset]
  omega

/-! ### Reads that return 0 -/

theorem busAccess_read_zero {off n : Nat} {s : State} (hw : (Access.read off n).wellFormed = true)
    (hzero : ∀ i < n, readByte s (off + i) = 0) : busAccess (.read off n) s = (s, .data 0) := by
  rw [busAccess_read hw, readBytes_zero hzero]

/-- A byte that is stored as 0 reads 0 in every phase, the busy window hiding no more. -/
theorem readByte_row_zero {q : MapRow} (hq : q ∈ addressMap) {off : Nat} (hb : q.first ≤ off ∧ off ≤ q.last) {s : State}
    (hzero : storedByte s q.contents (off - q.first) = 0) : readByte s off = 0 := by
  rw [readByte_cases (rowOf_is hq hb), hzero, ite_self]

/-- A legal read that starts in a row of zero bytes that ends aligned to 4 reads 0. -/
theorem busAccess_read_row_zero {q : MapRow} (hq : q ∈ addressMap) (hal : q.last % 4 = 3) {off n : Nat} {s : State}
    (hb : q.first ≤ off ∧ off ≤ q.last) (hw : (Access.read off n).wellFormed = true)
    (hzero : ∀ i, storedByte s q.contents i = 0) : busAccess (.read off n) s = (s, .data 0) :=
  busAccess_read_zero hw fun i hi =>
    readByte_row_zero hq ⟨Nat.le_add_right_of_le hb.1, offset_le_of_wellFormed hw hal hb.2 i hi⟩ (hzero _)

/-- Settles O15: R77 makes a narrow CMD write illegal, and every byte of CMD reads 0 (R32). -/
theorem cmdTakesOnlyWordWrites : Obligations.CmdTakesOnlyWordWrites := by
  refine ⟨fun s off n v hn hlo hhi => busAccess_refused ?_ s, fun s off n hw hlo hhi => ?_⟩
  · have hnarrow : (Access.write off n v).narrowCmdWrite = true := decide_eq_true (by omega)
    rw [Access.wellFormed, hnarrow, Bool.not_true, Bool.and_false]
  · exact busAccess_read_row_zero (q := ⟨0x004, 0x007, .cmd, .control, .wo⟩) (by decide) rfl ⟨hlo, hhi⟩ hw fun _ => rfl

theorem addressMap_last_lt : ∀ q ∈ addressMap, q.last < 0x1000 := by
  decide

/-- A reserved byte reads 0 in every phase (R76). -/
theorem busAccess_read1_reserved {q : MapRow} (hq : q ∈ addressMap) (hres : q.contents = .reserved) {off : Nat}
    (hb : q.first ≤ off ∧ off ≤ q.last) (s : State) : busAccess (.read off 1) s = (s, .data 0) := by
  rw [busAccess_read1 s (hb.2.trans_lt (addressMap_last_lt q hq)), readByte_row_zero hq hb (by rw [hres]; rfl)]
  rfl

/-- Settles O24: a reserved byte is stored as 0 and takes nothing. -/
theorem reservedReadZeroIgnoreWrites : Obligations.ReservedReadZeroIgnoreWrites := by
  have hctl : (⟨0x074, 0x3FF, .reserved, .control, .razwi⟩ : MapRow) ∈ addressMap := by decide
  have hout : (⟨0x071, 0x073, .reserved, .output, .razwi⟩ : MapRow) ∈ addressMap := by decide
  refine ⟨fun s off n v hlo hhi => ⟨fun hw => ?_, fun hw => ?_⟩, fun s off v hoff => ?_,
    fun s off hlo hhi => busAccess_read1_reserved hout rfl ⟨hlo, hhi⟩ s⟩
  · exact busAccess_read_row_zero hctl rfl ⟨hlo, hhi⟩ hw fun _ => rfl
  · exact busAccess_write_ignored hctl rfl (by decide) hw (by omega) ⟨hlo, hhi⟩ fun _ _ _ _ => rfl
  · obtain ⟨q, hq, hres, hb⟩ : ∃ q ∈ addressMap, q.contents = .reserved ∧ q.first ≤ off ∧ off ≤ q.last := by
      rcases hoff with hnonce | rfl
      · exact ⟨⟨0x03D, 0x03F, .reserved, .input, .razwi⟩, by decide, rfl, hnonce⟩
      · exact ⟨⟨0x047, 0x047, .reserved, .input, .razwi⟩, by decide, rfl, le_rfl, le_rfl⟩
    refine ⟨busAccess_read1_reserved hq hres hb s, fun hidle => ?_⟩
    rw [busAccess_write1 v s (by omega) (by omega), writeByte_row hq hb _ s (.inr hidle), hres]
    rfl

/-! ### The busy window of the inputs -/

/-- While BUSY a byte write to an input offset is an overrun (R80). -/
theorem writeByte_input_busy {off : Nat} (hin : InputOffset off) (b : Byte) {s : State} (hbusy : s.phase = .busy) :
    writeByte off b s = overrun s := by
  obtain ⟨r, hr⟩ := rowOf_some (off := off) (by omega)
  rcases writeByte_cases hr b s with ⟨-, -, he⟩ | ⟨hn, -⟩
  · exact he
  · exact absurd ⟨hin, hbusy⟩ hn

/-- A second overrun adds nothing to the first. -/
theorem overrun_overrun (s : State) : overrun (overrun s) = overrun s := by
  simp [overrun, raiseFlag, BitVec.or_assoc]

theorem writeBytes_input_busy {off n : Nat} (v : Word) (hn : 1 ≤ n) (hin : ∀ i < n, InputOffset (off + i)) {s : State}
    (hbusy : s.phase = .busy) : writeBytes off v n s = overrun s := by
  induction n, hn using Nat.le_induction with
  | base => exact writeByte_input_busy (hin 0 Nat.one_pos) _ hbusy
  | succ n hn ih =>
    have hbusy' : (overrun s).phase = .busy := hbusy
    rw [writeBytes, ih fun i hi => hin i (by omega), writeByte_input_busy (hin n n.lt_succ_self) _ hbusy', overrun_overrun]

/-- Of the stored bytes only those of STATUS see the phase. -/
theorem storedByte_phase (s : State) (p : Phase) {c : Contents} (hc : c ≠ .status) (i : Nat) :
    storedByte { s with phase := p } c i = storedByte s c i := by
  cases c with
  | status => exact absurd rfl hc
  | _ => rfl

theorem contents_ne_status_of_input : ∀ r ∈ addressMap, r.cls = .input → r.contents ≠ .status := by
  decide

/-- An input byte reads the same in both phases (R80). -/
theorem readByte_input_phase {off : Nat} (hin : InputOffset off) (s : State) (p : Phase) :
    readByte { s with phase := p } off = readByte s off := by
  obtain ⟨r, hr⟩ := rowOf_some (off := off) (by omega)
  have hout : ¬OutputOffset off := by simp only [OutputOffset]; omega
  have hne := contents_ne_status_of_input r (rowOf_bounds hr).1 ((rowOf_class hr).1.2 hin)
  simp only [readByte_cases hr, hout, false_and, if_false, storedByte_phase s p hne]

theorem readBytes_congr {s t : State} {off n : Nat} (h : ∀ i < n, readByte s (off + i) = readByte t (off + i)) :
    readBytes s off n = readBytes t off n := by
  induction n with
  | zero => rfl
  | succ n ih => rw [readBytes, readBytes, ih fun i hi => h i (by omega), h n (by omega)]

/-- Settles O20: a legal access that starts at an input offset has input bytes alone. -/
theorem inputsHeldWhileBusy : Obligations.InputsHeldWhileBusy := by
  intro s off n v hbusy hin
  refine ⟨fun hw => ?_, fun hw => ?_⟩
  · have hn : n = 1 ∨ n = 2 ∨ n = 4 := (wellFormed_bounds hw).1
    have hbytes : ∀ i < n, InputOffset (off + i) := (class_of_access hw).1 hin
    rw [busAccess_write_bytes hw (by omega), writeBytes_input_busy v (by omega) hbytes hbusy]
    rfl
  · rw [busAccess_read hw, busAccess_read hw]
    exact congrArg BusResponse.data
      (readBytes_congr fun i hi => (readByte_input_phase ((class_of_access hw).1 hin i hi) s .idle).symm)

/-! ### The busy window of the outputs -/

theorem readByte_output_busy {off : Nat} (hout : OutputOffset off) {s : State} (hbusy : s.phase = .busy) :
    readByte s off = 0 := by
  obtain ⟨r, hr⟩ := rowOf_some (off := off) (by omega)
  rw [readByte_cases hr, if_pos ⟨hout, hbusy⟩]

/-- No output register or buffer takes a byte from the bus (R78). -/
theorem putByte_output {r : MapRow} (hr : r ∈ addressMap) (hc : r.cls = .output) (i : Nat) (b : Byte) (s : State) :
    putByte r.contents i b s = s := by
  have hro : r.contents = .result0 ∨ r.contents = .result1 ∨ r.contents = .result2 ∨ r.contents = .reserved ∨
      r.contents = .bufO := by
    revert r
    decide
  rcases hro with h | h | h | h | h <;> simp only [h, putByte]

theorem writeByte_output {off : Nat} (hout : OutputOffset off) (b : Byte) (s : State) : writeByte off b s = s := by
  obtain ⟨r, hr⟩ := rowOf_some (off := off) (by omega)
  have hc : r.cls = .output := (rowOf_class hr).2.2 hout
  obtain ⟨hm, hb⟩ := rowOf_bounds hr
  rw [writeByte_row hm hb b s (.inl (by simp [hc])), putByte_output hm hc]

/-- Settles O21: a legal access that starts at an output offset has output bytes alone. -/
theorem outputsHiddenWhileBusy : Obligations.OutputsHiddenWhileBusy := by
  refine fun s off n v hout => ⟨fun hw hbusy => ?_, fun hw => ?_⟩
  · exact busAccess_read_zero hw fun i hi => readByte_output_busy ((class_of_access hw).2 hout i hi) hbusy
  · have hbytes : ∀ i < n, OutputOffset (off + i) := (class_of_access hw).2 hout
    rw [busAccess_write_bytes hw (by omega), writeBytes_id v fun i hi b => writeByte_output (hbytes i hi) b s]

/-! ### What only an accepted command changes -/

theorem SameCore.statusWord {s t : State} (h : SameCore s t) : t.statusWord = s.statusWord := by
  simp only [State.statusWord, State.busy, h.lastop, h.errcode, h.err, h.done, h.phase]

/-- No byte write reaches BUF_O (R81). -/
theorem get_bufO_writeBytes (off : Nat) (v : Word) (n : Nat) (s : State) (i : Nat) :
    Memory.get (writeBytes off v n s).mem (0xC00 + i) = Memory.get s.mem (0xC00 + i) := by
  refine writeBytes_induct (P := fun t => Memory.get t.mem (0xC00 + i) = Memory.get s.mem (0xC00 + i)) v
    (fun j _ b t ht => ?_) rfl
  rcases writeByte_mem (off + j) b t with he | ⟨-, hlt, -, he⟩ <;> rw [he]
  · exact ht
  · rw [Memory.get_set_ne _ _ (by omega), ht]

/-- An access other than an accepted command changes no core field and no byte of BUF_O. -/
theorem busAccess_frame {a : Access} {s : State} (hna : ∀ w, a = .write 4 4 w → s.phase = .busy) :
    SameCore s (busAccess a s).1 ∧
      ∀ i, Memory.get (busAccess a s).1.mem (0xC00 + i) = Memory.get s.mem (0xC00 + i) := by
  rcases busAccess_cases a s with he | ⟨w, ha, he⟩ | ⟨off, n, v, -, -, he⟩ <;> rw [he]
  · exact ⟨.refl s, fun _ => rfl⟩
  · rw [cmdWrite_busy (hna w ha)]
    exact ⟨⟨rfl, rfl, rfl, rfl, rfl, rfl, rfl, rfl, rfl, rfl, rfl⟩, fun _ => rfl⟩
  · exact ⟨sameCore_writeBytes off v n s, get_bufO_writeBytes off v n s⟩

/-- Settles O34: outputs, STATUS and the phase are core fields and BUF_O. -/
theorem outputsStableUntilNextCommand : Obligations.OutputsStableUntilNextCommand := by
  intro s a hna
  obtain ⟨hc, hbufO⟩ := busAccess_frame hna
  exact ⟨hc.result0, hc.result1, hc.result2, hbufO, hc.statusWord, hc.phase⟩

end Sys2Proof.Machine
end

section
/-! SUPPORT. Narrow writes to LEN_A, LEN_B and IVINDEX (spec/20_memory.md R75; spec/10_state.md R36 to R38). -/

namespace Sys2Proof.Machine

/-! ### Lanes of a word -/

/-- A lane write bit by bit (R75). -/
theorem getLsbD_setLane (v : Word) {i : Nat} (hi : i < 4) (b : Byte) {j : Nat} (hj : j < 32) :
    (setLane v i b).getLsbD j = if j / 8 = i then b.getLsbD (j % 8) else v.getLsbD j := by
  interval_cases i <;> interval_cases j <;> simp [setLane]

/-- A lane write to a word replaces that byte alone (R38, R75). -/
theorem setLane_eq_append (x : Word) (b : Byte) :
    setLane x 0 b = x.extractLsb' 8 24 ++ b ∧ setLane x 1 b = x.extractLsb' 16 16 ++ b ++ x.extractLsb' 0 8 ∧
      setLane x 2 b = x.extractLsb' 24 8 ++ b ++ x.extractLsb' 0 16 ∧ setLane x 3 b = b ++ x.extractLsb' 0 24 := by
  refine ⟨?_, ?_, ?_, ?_⟩ <;>
  · apply BitVec.eq_of_getLsbD_eq
    intro j hj
    simp only [getLsbD_setLane _ _ _ hj, Nat.reduceLT, BitVec.getLsbD_append, BitVec.getLsbD_extractLsb']
    interval_cases j <;> simp

/-- The two lane writes of a half replace that half alone (R73, R75). -/
theorem setLane_half (x v : Word) :
    setLane (setLane x 0 (laneOf v 0)) 1 (laneOf v 1) = x.extractLsb' 16 16 ++ v.extractLsb' 0 16 ∧
      setLane (setLane x 2 (laneOf v 0)) 3 (laneOf v 1) = v.extractLsb' 0 16 ++ x.extractLsb' 0 16 := by
  refine ⟨?_, ?_⟩ <;>
  · apply BitVec.eq_of_getLsbD_eq
    intro j hj
    simp only [getLsbD_setLane _ _ _ hj, Nat.reduceLT, BitVec.getLsbD_append, BitVec.getLsbD_extractLsb', laneOf]
    interval_cases j <;> simp

/-- A lane write to bits [15:0] of a 16-bit field replaces the addressed byte (R36, R37). -/
theorem setLane_field16_low (x : BitVec 16) (b : Byte) :
    (setLane (x.setWidth 32) 0 b).setWidth 16 = x.extractLsb' 8 8 ++ b ∧
      (setLane (x.setWidth 32) 1 b).setWidth 16 = b ++ x.extractLsb' 0 8 := by
  refine ⟨?_, ?_⟩ <;>
  · apply BitVec.eq_of_getLsbD_eq
    intro j hj
    simp only [BitVec.getLsbD_setWidth, getLsbD_setLane _ _ _ (hj.trans (by decide : 16 < 32)), Nat.reduceLT,
      BitVec.getLsbD_append, BitVec.getLsbD_extractLsb']
    interval_cases j <;> simp

/-- A lane write to the reserved bytes of a 16-bit field takes nothing (R76). -/
theorem setLane_field16_high (x : BitVec 16) {i : Nat} (h2 : 2 ≤ i) (h4 : i < 4) (b : Byte) :
    (setLane (x.setWidth 32) i b).setWidth 16 = x := by
  apply BitVec.eq_of_getLsbD_eq
  intro j hj
  have hj32 : j < 32 := by omega
  have hlane : j / 8 ≠ i := by omega
  rw [BitVec.getLsbD_setWidth, getLsbD_setLane _ h4 _ hj32, if_neg hlane]
  simp [hj, hj32]

/-- The two lane writes of the low half replace the whole field. -/
theorem setLane_half_field16 (x : BitVec 16) (v : Word) :
    (setLane (((setLane (x.setWidth 32) 0 (laneOf v 0)).setWidth 16).setWidth 32) 1 (laneOf v 1)).setWidth 16 =
      v.extractLsb' 0 16 := by
  rw [setWidth16_setLane, (setLane_half _ v).1]
  exact BitVec.setWidth_append_eq_right

/-! ### Narrow writes to an input register -/

theorem contents_ne_cmd_of_input : ∀ q ∈ addressMap, q.cls = .input → q.contents ≠ .cmd := by
  decide

/-- A 1- or 2-byte write to an input register while IDLE stores its bytes, lane 0 first (R73). -/
theorem busAccess_write_narrow {q : MapRow} (hq : q ∈ addressMap) (hl : q.last = q.first + 3) (hc : q.cls = .input)
    (hal : q.first % 4 = 0) (v : Word) {s : State} (hidle : s.phase = .idle) :
    (∀ i < 4, ∀ {t}, putByte q.contents i (v.extractLsb' 0 8) s = t →
      busAccess (.write (q.first + i) 1 v) s = (t, .written)) ∧
    ∀ i, i = 0 ∨ i = 2 → ∀ {t}, putByte q.contents (i + 1) (laneOf v 1) (putByte q.contents i (laneOf v 0) s) = t →
      busAccess (.write (q.first + i) 2 v) s = (t, .written) := by
  refine ⟨fun i hi t ht => ?_, fun i hi t ht => ?_⟩
  · rw [busAccess_write1_row hq (by omega) v hidle (contents_ne_cmd_of_input q hq hc), ht]
  · have hin : InputOffset q.first := (rowOf_class (rowOf_is hq ⟨le_rfl, by omega⟩)).1.1 hc
    have hw : (Access.write (q.first + i) 2 v).wellFormed = true :=
      wellFormed_of_bounds (.inr (.inl rfl)) (by simp only [Access.width, Access.offset]; omega)
        (by simp only [Access.width, Access.offset]; omega) (decide_eq_false (by omega))
    rw [busAccess_write_bytes hw (by omega)]
    simp only [writeBytes]
    rw [writeByte_row hq (by omega) _ s (.inr hidle), writeByte_row hq (by omega) _ _ (.inr (by simpa using hidle))]
    simpa [Nat.add_assoc] using ht

/-- What one and two byte writes make of LEN_A (R36). -/
theorem putByte_lenA (v : Word) (s : State) (b : Byte) :
    putByte .lenA 0 b s = { s with lenA := s.lenA.extractLsb' 8 8 ++ b } ∧
      putByte .lenA 1 b s = { s with lenA := b ++ s.lenA.extractLsb' 0 8 } ∧
      putByte .lenA 2 b s = s ∧ putByte .lenA 3 b s = s ∧
      putByte .lenA 1 (laneOf v 1) (putByte .lenA 0 (laneOf v 0) s) = { s with lenA := v.extractLsb' 0 16 } ∧
      putByte .lenA 3 (laneOf v 1) (putByte .lenA 2 (laneOf v 0) s) = s := by
  obtain ⟨h0, h1⟩ := setLane_field16_low s.lenA b
  have h2 := setLane_field16_high s.lenA (by decide : 2 ≤ 2) (by decide)
  have h3 := setLane_field16_high s.lenA (by decide : 2 ≤ 3) (by decide)
  simp only [putByte, h0, h1, h2, h3, setLane_half_field16, and_self]

/-- What one and two byte writes make of LEN_B (R37). -/
theorem putByte_lenB (v : Word) (s : State) (b : Byte) :
    putByte .lenB 0 b s = { s with lenB := s.lenB.extractLsb' 8 8 ++ b } ∧
      putByte .lenB 1 b s = { s with lenB := b ++ s.lenB.extractLsb' 0 8 } ∧
      putByte .lenB 2 b s = s ∧ putByte .lenB 3 b s = s ∧
      putByte .lenB 1 (laneOf v 1) (putByte .lenB 0 (laneOf v 0) s) = { s with lenB := v.extractLsb' 0 16 } ∧
      putByte .lenB 3 (laneOf v 1) (putByte .lenB 2 (laneOf v 0) s) = s := by
  obtain ⟨h0, h1⟩ := setLane_field16_low s.lenB b
  have h2 := setLane_field16_high s.lenB (by decide : 2 ≤ 2) (by decide)
  have h3 := setLane_field16_high s.lenB (by decide : 2 ≤ 3) (by decide)
  simp only [putByte, h0, h1, h2, h3, setLane_half_field16, and_self]

/-- What one and two byte writes make of IVINDEX (R38). -/
theorem putByte_ivindex (v : Word) (s : State) (b : Byte) :
    putByte .ivindex 0 b s = { s with ivindex := s.ivindex.extractLsb' 8 24 ++ b } ∧
      putByte .ivindex 1 b s = { s with ivindex := s.ivindex.extractLsb' 16 16 ++ b ++ s.ivindex.extractLsb' 0 8 } ∧
      putByte .ivindex 2 b s = { s with ivindex := s.ivindex.extractLsb' 24 8 ++ b ++ s.ivindex.extractLsb' 0 16 } ∧
      putByte .ivindex 3 b s = { s with ivindex := b ++ s.ivindex.extractLsb' 0 24 } ∧
      putByte .ivindex 1 (laneOf v 1) (putByte .ivindex 0 (laneOf v 0) s) =
        { s with ivindex := s.ivindex.extractLsb' 16 16 ++ v.extractLsb' 0 16 } ∧
      putByte .ivindex 3 (laneOf v 1) (putByte .ivindex 2 (laneOf v 0) s) =
        { s with ivindex := v.extractLsb' 0 16 ++ s.ivindex.extractLsb' 0 16 } := by
  obtain ⟨h0, h1, h2, h3⟩ := setLane_eq_append s.ivindex b
  obtain ⟨hlow, hhigh⟩ := setLane_half s.ivindex v
  simp only [putByte, h0, h1, h2, h3, hlow, hhigh, and_self]

/-- Settles O30: a narrow write stores its lanes, and the lengths have no storage in lanes 2 and 3. -/
theorem narrowLengthWrites : Obligations.NarrowLengthWrites := by
  intro s v hidle
  have hA : (⟨0x014, 0x017, .lenA, .input, .rw⟩ : MapRow) ∈ addressMap := by decide
  have hB : (⟨0x018, 0x01B, .lenB, .input, .rw⟩ : MapRow) ∈ addressMap := by decide
  have hI : (⟨0x01C, 0x01F, .ivindex, .input, .rw⟩ : MapRow) ∈ addressMap := by decide
  obtain ⟨laneA, halfA⟩ := busAccess_write_narrow hA rfl rfl rfl v hidle
  obtain ⟨laneB, halfB⟩ := busAccess_write_narrow hB rfl rfl rfl v hidle
  obtain ⟨laneI, halfI⟩ := busAccess_write_narrow hI rfl rfl rfl v hidle
  obtain ⟨a0, a1, a2, a3, aLow, aHigh⟩ := putByte_lenA v s (v.extractLsb' 0 8)
  obtain ⟨b0, b1, b2, b3, bLow, bHigh⟩ := putByte_lenB v s (v.extractLsb' 0 8)
  obtain ⟨i0, i1, i2, i3, iLow, iHigh⟩ := putByte_ivindex v s (v.extractLsb' 0 8)
  exact ⟨laneA 0 (by decide) a0, laneA 1 (by decide) a1, laneA 2 (by decide) a2, laneA 3 (by decide) a3,
    halfA 0 (.inl rfl) aLow, halfA 2 (.inr rfl) aHigh,
    laneB 0 (by decide) b0, laneB 1 (by decide) b1, laneB 2 (by decide) b2, laneB 3 (by decide) b3,
    halfB 0 (.inl rfl) bLow, halfB 2 (.inr rfl) bHigh,
    laneI 0 (by decide) i0, laneI 1 (by decide) i1, laneI 2 (by decide) i2, laneI 3 (by decide) i3,
    halfI 0 (.inl rfl) iLow, halfI 2 (.inr rfl) iHigh⟩

end Sys2Proof.Machine
end

section
/-! SUPPORT. A platform of several units (spec/20_memory.md R70; spec/60_exceptions.md R283). -/

namespace Sys2Proof.Machine

/-- Every turn of every agent answers a next state. -/
theorem takeTurn_next (u : Turn) (s : State) : ∃ t, takeTurn u s = .next t := by
  cases u with
  | host k => exact ⟨_, rfl⟩
  | engine =>
    rcases engineTurn_cases s with ⟨-, he⟩ | ⟨-, i, -, he⟩ | ⟨-, e, -, he⟩
    · exact ⟨_, he⟩
    · exact ⟨_, he.trans (exec_eq i s)⟩
    · exact ⟨_, he⟩
  | reset => exact ⟨_, rfl⟩

theorem nextTurn_next (s : State) : ∃ t, nextTurn s = .next t := by
  obtain ⟨u, sc, hu⟩ := step_cases s
  obtain ⟨t, ht⟩ := takeTurn_next u { s with sched := sc }
  exact ⟨t, hu.trans ht⟩

/-- Replacing one unit replaces that unit alone. -/
theorem getElem?_units_set {us : List Placed} {k : Nat} {u : Placed} (hu : us[k]? = some u) (x : Placed) :
    (us.set k x)[k]? = some x ∧ ∀ j, j ≠ k → (us.set k x)[j]? = us[j]? :=
  ⟨List.getElem?_set_self (List.getElem?_eq_some_iff.1 hu).1, fun _ hj => List.getElem?_set_ne hj.symm⟩

/-- The unit that serves an address is the first one that holds it (R70). -/
theorem findIdx?_placedAt {us : List Placed} {k : Nat} {u : Placed} {addr : Nat} (hu : us[k]? = some u)
    (hat : placedAt addr u = true) (hfirst : ∀ j < k, ∀ x, us[j]? = some x → placedAt addr x = false) :
    us.findIdx? (placedAt addr) = some k := by
  obtain ⟨hk, rfl⟩ := List.getElem?_eq_some_iff.1 hu
  refine List.findIdx?_eq_some_iff_getElem.2 ⟨hk, hat, fun j hj => ?_⟩
  simp [hfirst j hj _ (List.getElem?_eq_getElem (hj.trans hk))]

/-- Settles O58: an access and a step replace the one unit they fall to. -/
theorem platformUnitsShareNothing : Obligations.PlatformUnitsShareNothing := by
  refine ⟨fun p k u a hu hat hfirst => ⟨_, ?_, getElem?_units_set hu _⟩, fun p k u hu => ?_⟩
  · simp only [Platform.access, findIdx?_placedAt hu hat hfirst, hu]
  · obtain ⟨s, hs⟩ := nextTurn_next u.core
    exact ⟨_, s, hs, by simp only [Platform.stepUnit, hu, hs], getElem?_units_set hu _⟩

end Sys2Proof.Machine
end

section
/-! SUPPORT. The command word (spec/30_encoding.md R100 to R105): decoding inverts encoding, and the legal words are the words of
the commands. -/

namespace Sys2Proof

/-- Every row of the opcode map stands for one word, its pattern under the full mask, or for the two words of a CCM command. -/
theorem opcodeMap_rows : ∀ r ∈ opcodeMap,
    (r.mask = 0xFFFFFFFF ∧ encode (r.build .m4) = r.pattern ∧ encode (r.build .m8) = r.pattern) ∨
      (r.mask = 0xFFFFFEFF ∧ encode (r.build .m4) = r.pattern ∧
        ((r.pattern = 0x004 ∧ encode (r.build .m8) = 0x104) ∨ (r.pattern = 0x005 ∧ encode (r.build .m8) = 0x105))) := by
  decide

/-- A word that a row of the opcode map matches is the word of the command the row builds from it. -/
theorem encode_build_of_match {r : OpRow} (hr : r ∈ opcodeMap) {w : Word} (hm : w &&& r.mask = r.pattern) :
    encode (r.build (micOfWord w)) = w := by
  rcases opcodeMap_rows r hr with ⟨hmask, h4, h8⟩ | ⟨hmask, h4, hccm⟩ <;> rw [hmask] at hm
  · have hw : w = r.pattern := (and_fullMask_eq w _).1 hm
    cases micOfWord w with
    | m4 => rw [h4, hw]
    | m8 => rw [h8, hw]
  · rcases hccm with ⟨hp, h8⟩ | ⟨hp, h8⟩ <;> rw [hp] at hm h4
    · rcases (and_ccmMask_eq w (.inl ⟨rfl, rfl⟩)).1 hm with rfl | rfl
      · exact h4
      · exact h8
    · rcases (and_ccmMask_eq w (.inr ⟨rfl, rfl⟩)).1 hm with rfl | rfl
      · exact h4
      · exact h8

/-- What decodes to a command is the command's word: no bit of a word is dropped. -/
theorem encode_of_decode {w : Word} {i : Instr} (h : decode w = .ok i) : encode i = w := by
  simp only [decode] at h
  split at h
  · next r hr =>
    cases h
    exact encode_build_of_match (List.mem_of_find?_eq_some hr) (by simpa using List.find?_some hr)
  · cases h

/-- A command's word decodes to it. -/
theorem decode_encode (i : Instr) : decode (encode i) = .ok i := by
  cases i with
  | ccmEnc m => cases m <;> rfl
  | ccmDec m => cases m <;> rfl
  | _ => rfl

/-- Settles O2: both directions, whatever the MIC size. -/
theorem decodeAndEncodeAreInverse : Obligations.DecodeAndEncodeAreInverse :=
  ⟨fun i _ => decode_encode i, fun _ _ => encode_of_decode⟩

/-- Settles O3: each listed word is its command's word. -/
theorem listedWordsDecode : Obligations.ListedWordsDecode :=
  ⟨decode_encode .clear, decode_encode .aes, decode_encode .cmac, decode_encode .s1, decode_encode (.ccmEnc .m4),
    decode_encode (.ccmEnc .m8), decode_encode (.ccmDec .m4), decode_encode (.ccmDec .m8), decode_encode .k1,
    decode_encode .k2, decode_encode .k3, decode_encode .k4, decode_encode .obf, decode_encode .deobf⟩

/-- The fields of every command's word, from the laws of the single commands. -/
theorem encode_fields (i : Instr) : Laws.EncodeFields.Statement i :=
  match i with
  | .clear => Laws.EncodeFields.clear
  | .aes => Laws.EncodeFields.aes
  | .cmac => Laws.EncodeFields.cmac
  | .s1 => Laws.EncodeFields.s1
  | .ccmEnc m => Laws.EncodeFields.ccmEnc m
  | .ccmDec m => Laws.EncodeFields.ccmDec m
  | .k1 => Laws.EncodeFields.k1
  | .k2 => Laws.EncodeFields.k2
  | .k3 => Laws.EncodeFields.k3
  | .k4 => Laws.EncodeFields.k4
  | .obf => Laws.EncodeFields.obf
  | .deobf => Laws.EncodeFields.deobf

/-- A word is its three fields (R100). -/
theorem word_ext_fields {v w : Word} (hop : v.extractLsb' 0 8 = w.extractLsb' 0 8) (hm8 : v.getLsbD 8 = w.getLsbD 8)
    (hres : v.extractLsb' 9 23 = w.extractLsb' 9 23) : v = w := by
  refine BitVec.eq_of_getLsbD_eq fun i hi => ?_
  rcases lt_trichotomy i 8 with h | rfl | h
  · simpa [h] using congrArg (fun b : Byte => b.getLsbD i) hop
  · exact hm8
  · have hlt : i - 9 < 23 := by omega
    have hadd : 9 + (i - 9) = i := by omega
    simpa [hlt, hadd] using congrArg (fun b : BitVec 23 => b.getLsbD (i - 9)) hres

/-- Every OP and M8 that R103 allows belong to a command. -/
theorem exists_instr_of_fields : ∀ op ≤ 0x0B, ∀ m8, (m8 = false ∨ op = 0x04 ∨ op = 0x05) →
    ∃ i ∈ allInstrs, i.opcode.toNat = op ∧ i.m8 = m8 := by
  decide

/-- The legal words of R103 are the words of the commands. -/
theorem legalWord_iff (w : Word) : legalWord w = true ↔ ∃ i, encode i = w := by
  constructor
  · intro h
    simp only [legalWord, Bool.and_eq_true, Bool.or_eq_true, Bool.not_eq_true', beq_iff_eq, decide_eq_true_eq,
      or_assoc] at h
    obtain ⟨⟨hres, hop⟩, hm8⟩ := h
    obtain ⟨i, -, hiop, him8⟩ := exists_instr_of_fields _ hop _ hm8
    obtain ⟨-, hop', hm8', hres', -⟩ := encode_fields i
    exact ⟨i, word_ext_fields (hop'.trans (BitVec.eq_of_toNat_eq hiop)) (hm8'.trans him8) (hres'.trans hres.symm)⟩
  · rintro ⟨i, rfl⟩
    exact (encode_fields i).1

/-- Settles O1: the words that decode and the legal words are both the words of the commands. -/
theorem decodeAcceptsExactlyLegalWords : Obligations.DecodeAcceptsExactlyLegalWords := by
  intro w
  rw [legalWord_iff]
  exact exists_congr fun i => ⟨encode_of_decode, fun h => h ▸ decode_encode i⟩

end Sys2Proof
end

section
/-! SUPPORT. The engine's step (spec/30_encoding.md R112 to R117): it is one completion, of which nothing but the outputs and
STATUS depends on the command, and the schedule reaches it. -/

namespace Sys2Proof.Machine

/-! ### One completion -/

/-- While IDLE the engine's turn does nothing (R117). -/
theorem engineTurn_idle {s : State} (h : s.phase = .idle) : engineTurn s = .next s := by
  simp [engineTurn, State.busy, h]

/-- In BUSY the engine's turn is a completion: the command's, or that of ERR_OPCODE. -/
theorem engineTurn_busy {s : State} (h : s.phase = .busy) : ∃ r, engineTurn s = .next (complete r s) := by
  rcases engineTurn_cases s with ⟨hidle, -⟩ | ⟨-, i, -, he⟩ | ⟨-, e, -, he⟩
  · rw [h] at hidle
    cases hidle
  · exact ⟨resultOf i s, he.trans (exec_eq i s)⟩
  · exact ⟨.error .opcode, he⟩

@[simp] theorem complete_phase (r : CmdResult) (s : State) : (complete r s).phase = .idle := by cases r <;> rfl

theorem complete_done (r : CmdResult) (s : State) : (complete r s).done = !(complete r s).err := by cases r <;> rfl

/-- Either completion scrubs (R114). -/
theorem inputsZero_complete (r : CmdResult) (s : State) : InputsZero (complete r s) := by
  cases r with
  | ok r0 r1 r2 o => exact inputsZero_finish r0 r1 r2 o s
  | error c => exact inputsZero_takeError c s

/-- Settles O5: in BUSY the engine's turn is a completion. -/
theorem engineStepsOnlyWhileBusy : Obligations.EngineStepsOnlyWhileBusy := by
  refine fun s => ⟨engineTurn_idle, fun hbusy => ?_⟩
  obtain ⟨r, hr⟩ := engineTurn_busy hbusy
  exact ⟨_, hr, complete_phase r s, complete_done r s⟩

/-- Settles O50: in BUSY the engine's turn is a completion, and each scrubs. -/
theorem everyCompletionScrubsInputs : Obligations.EveryCompletionScrubsInputs := by
  intro s hbusy
  obtain ⟨r, hr⟩ := engineTurn_busy hbusy
  exact ⟨_, hr, inputsZero_complete r s⟩

/-! ### The schedule -/

/-- A step takes the turn at the head of the schedule. -/
theorem step_of_sched {s : State} {u : Turn} {rest : List Turn} (h : s.sched = u :: rest) :
    step s = takeTurn u { s with sched := rest } := by
  simp only [step, nextTurn, h]

/-- With the engine's turn next in BUSY, the step is the engine's. -/
theorem step_of_engineNext {s : State} (h : s.phase = .busy) (hn : EngineNext s) :
    step s = engineTurn { s with sched := s.sched.tail } := by
  cases hs : s.sched with
  | nil =>
    have hd : defaultTurn s = .engine := by simp [defaultTurn, State.busy, h]
    simp only [step, nextTurn, hs, hd, takeTurn, List.tail_nil]
    rw [← hs]
  | cons u rest =>
    have hu : u = .engine := by simpa [EngineNext, hs] using hn
    rw [step_of_sched hs, hu]
    rfl

/-- In BUSY with a legal word latched the engine's turn is the command. -/
theorem engineTurn_of_decode {s : State} (h : s.phase = .busy) {i : Instr} (hd : decode s.cmdl = .ok i) :
    engineTurn s = exec i s := by
  simp only [engineTurn, (busy_iff s).2 h, if_true, completionStep, hd]

/-- Settles O4: the engine's turn in BUSY runs the decoded command. -/
theorem stepRunsTheLatchedCommand : Obligations.StepRunsTheLatchedCommand := by
  intro s i hbusy hd hn
  rw [step_of_engineNext hbusy hn]
  exact engineTurn_of_decode (s := { s with sched := s.sched.tail }) hbusy hd

/-- A host's turn in BUSY leaves the command in progress and the schedule (R80, R116). -/
theorem hostTurn_busy {s : State} (h : s.phase = .busy) (k : Nat) :
    (hostTurn k s).phase = .busy ∧ (hostTurn k s).sched = s.sched := by
  rcases hostTurn_cases k s with he | ⟨a, hs, he⟩ <;> rw [he]
  · exact ⟨h, rfl⟩
  · obtain ⟨e, f, hb⟩ := busAccess_busy h a
    rw [hb]
    exact ⟨h, rfl⟩

/-- A turn in BUSY ends the command, or leaves it in progress and the schedule as it is. -/
theorem takeTurn_busy {s : State} (h : s.phase = .busy) (u : Turn) :
    ∃ t, takeTurn u s = .next t ∧ (t.phase = .idle ∨ (t.phase = .busy ∧ t.sched = s.sched)) := by
  cases u with
  | host k => exact ⟨_, rfl, .inr (hostTurn_busy h k)⟩
  | engine =>
    obtain ⟨r, hr⟩ := engineTurn_busy h
    exact ⟨_, hr, .inl (complete_phase r s)⟩
  | reset => exact ⟨_, rfl, .inl rfl⟩

theorem run_core_succ {s t : State} (h : step s = .next t) (k : Nat) :
    Host.Core.run core (k + 1) s = Host.Core.run core k t := by
  have hstep : core.step s = .next t := h
  simp only [Host.Core.run, hstep]

/-- Settles O8, by induction on the schedule: a scheduled turn ends the command or uses up one entry, and after the last entry
the engine's turn comes. -/
theorem acceptedCommandCompletes : Obligations.AcceptedCommandCompletes := by
  intro s hbusy
  induction hs : s.sched generalizing s with
  | nil =>
    obtain ⟨r, hr⟩ := engineTurn_busy (s := { s with sched := s.sched.tail }) hbusy
    exact ⟨1, _, le_rfl, run_core_succ ((step_of_engineNext hbusy (.inl hs)).trans hr) 0, complete_phase r _⟩
  | cons u rest ih =>
    obtain ⟨t, ht, hcase⟩ := takeTurn_busy (s := { s with sched := rest }) hbusy u
    have hrun := run_core_succ ((step_of_sched hs).trans ht)
    rcases hcase with hidle | ⟨htb, hts⟩
    · exact ⟨1, t, by simp, hrun 0, hidle⟩
    · obtain ⟨k, t', hk, hk', hidle⟩ := ih t htb hts
      exact ⟨k + 1, t', by simpa using hk, (hrun k).trans hk', hidle⟩

end Sys2Proof.Machine
end

section
/-! SUPPORT. What a command reads (spec/30_encoding.md R106, R118): its result is a function of its operands. -/

namespace Sys2Proof.Machine

section
variable {s t : State}

/-- Equal operand A within the buffer. -/
theorem SameA.operandA_eq (h : SameA s t) (hl : s.lenA.toNat ≤ 1024) : s.operandA = t.operandA := by
  obtain ⟨hlen, hbytes⟩ := h
  rw [State.operandA, State.operandA, ← hlen]
  exact Memory.load_congr fun i hi => hbytes i (by omega)

/-- Equal operand B within the buffer. -/
theorem SameB.operandB_eq (h : SameB s t) (hl : s.lenB.toNat ≤ 1024) : s.operandB = t.operandB := by
  obtain ⟨hlen, hbytes⟩ := h
  rw [State.operandB, State.operandB, ← hlen]
  exact Memory.load_congr fun i hi => hbytes i (by omega)

/-- A result computed from operand A when a check on LEN_A passes that bounds it by the buffer. -/
theorem SameA.result_eq (h : SameA s t) {ok : BitVec 16 → Bool} (hok : ∀ len, ok len = true → len.toNat ≤ 1024)
    (f : List Byte → CmdResult) (e : CmdResult) :
    (if ok s.lenA then f s.operandA else e) = if ok t.lenA then f t.operandA else e := by
  rw [← h.1]
  split
  · next hl => rw [h.operandA_eq (hok _ hl)]
  · rfl

/-- A result computed from both operands when both lengths pass. -/
theorem SameA.result_eq_of_sameB (hA : SameA s t) (hB : SameB s t) (f : List Byte → List Byte → CmdResult) (e : CmdResult) :
    (if lengthOk s.lenA ∧ lengthOk s.lenB then f s.operandA s.operandB else e) =
      if lengthOk t.lenA ∧ lengthOk t.lenB then f t.operandA t.operandB else e := by
  rw [← hA.1, ← hB.1]
  split
  · next hl =>
    rw [hA.operandA_eq ((lengthOk_iff _).1 hl.1).2, hB.operandB_eq ((lengthOk_iff _).1 hl.2).2]
  · rfl

/-- The block operand of AES is operand A when LEN_A is 16. -/
theorem SameA.blockA_eq (h : SameA s t) (hl : s.lenA.toNat = 16) : s.blockA = t.blockA := by
  obtain ⟨-, hbytes⟩ := h
  exact congrArg blockOf (Memory.load_congr fun i hi => hbytes i (by omega))

/-- A command's result is a function of what R106 says it reads. -/
theorem resultOf_congr {i : Instr} (h : SameOperands i s t) : resultOf i s = resultOf i t := by
  have hlen : ∀ len, lengthOk len = true → len.toNat ≤ 1024 := fun len hl => ((lengthOk_iff len).1 hl).2
  have hccm : ∀ len, ccmLengthOk len = true → len.toNat ≤ 1024 := fun len => (ccmLengthOk_iff len).1
  cases i with
  | clear => rfl
  | aes =>
    obtain ⟨hk, hA⟩ := h
    simp only [resultOf, aesResult, hk, ← hA.1]
    split
    · rfl
    · next hl => rw [hA.blockA_eq (not_not.1 hl)]
  | cmac =>
    obtain ⟨hk, hA⟩ := h
    simp only [resultOf, cmacResult, hk]
    exact hA.result_eq hlen (fun a => .ok (cmac t.key a) zeroBlock 0x00 []) _
  | s1 => exact SameA.result_eq h hlen (fun a => .ok (s1Fn a) zeroBlock 0x00 []) _
  | ccmEnc m =>
    obtain ⟨hk, hn, hA⟩ := h
    simp only [resultOf, ccmEncResult, hk, hn]
    exact hA.result_eq hccm
      (fun a => .ok (blockOf (ccmMic t.key t.nonce m.bytes a)) zeroBlock 0x00 (ctr t.key t.nonce a)) _
  | ccmDec m =>
    obtain ⟨hk, hn, hA, hmic⟩ := h
    simp only [resultOf, ccmDecResult, State.receivedMic, hk, hn, hmic]
    exact hA.result_eq hccm
      (fun a => if micEqual (ccmMic t.key t.nonce m.bytes (ctr t.key t.nonce a)) (t.micIn.toList.take m.bytes)
        then .ok zeroBlock zeroBlock 0x00 (ctr t.key t.nonce a) else .error .auth) _
  | k1 =>
    obtain ⟨hk, hA, hB⟩ := h
    simp only [resultOf, k1Result, hk]
    exact hA.result_eq_of_sameB hB (fun a b => .ok (k1Fn a t.key b) zeroBlock 0x00 []) _
  | k2 =>
    obtain ⟨hA, hB⟩ := h
    exact hA.result_eq_of_sameB hB (fun a b => .ok (k2T2 a b) (k2T3 a b) (k2Nid a b) []) _
  | k3 => exact SameA.result_eq h hlen (fun a => .ok (blockOf (k3Fn a)) zeroBlock 0x00 []) _
  | k4 => exact SameA.result_eq h hlen (fun a => .ok (blockOf [k4Fn a]) zeroBlock 0x00 []) _
  | obf =>
    obtain ⟨hk, hiv, hpr, hA⟩ := h
    simp only [resultOf, obfResult, hk, hiv, hpr]
    exact hA.result_eq hlen (fun a => .ok zeroBlock zeroBlock 0x00 (obfuscate a t.prand t.ivindex t.key)) _
  | deobf =>
    obtain ⟨hk, hiv, hpr, hA⟩ := h
    simp only [resultOf, deobfResult, hk, hiv, hpr]
    exact hA.result_eq hlen (fun a => .ok zeroBlock zeroBlock 0x00 (obfuscate a t.prand t.ivindex t.key)) _

/-- One result completed from zero outputs shows the same outputs and STATUS (R113, R115). -/
theorem sameOutputs_complete (hs : Memory.wf s.mem = true) (ht : Memory.wf t.mem = true) (hos : OutputsZero s)
    (hot : OutputsZero t) (r : CmdResult) : SameOutputs (complete r s) (complete r t) := by
  have hzero : ∀ i < 1024, Memory.get s.mem (0xC00 + i) = Memory.get t.mem (0xC00 + i) :=
    fun i hi => (hos.bufO i hi).trans (hot.bufO i hi).symm
  cases r with
  | ok r0 r1 r2 o =>
    have hS := succeeded_finish hs r0 r1 r2 o
    have hT := succeeded_finish ht r0 r1 r2 o
    refine ⟨rfl, rfl, rfl, fun i hi => ?_, rfl, rfl, rfl⟩
    rcases lt_or_ge i o.length with hlt | hge
    · exact (hS.bufO i hlt).trans (hT.bufO i hlt).symm
    · exact (hS.bufORest i hge).trans ((hzero i hi).trans (hT.bufORest i hge).symm)
  | error c =>
    have hS := failed_takeError s c
    have hT := failed_takeError t c
    exact ⟨hos.result0.trans hot.result0.symm, hos.result1.trans hot.result1.symm, hos.result2.trans hot.result2.symm,
      fun i hi => (hS.bufO i).trans ((hzero i hi).trans (hT.bufO i).symm), rfl, rfl, rfl⟩

end

/-- Settles O52: equal operands give one result, and the completion with it shows nothing else of the state. -/
theorem commandsReadOnlyTheirOperands : Obligations.CommandsReadOnlyTheirOperands := by
  intro i s s' t t' hwf hwf' hout hout' hsame he he'
  rw [exec_eq] at he he'
  cases he
  cases he'
  rw [resultOf_congr hsame]
  exact sameOutputs_complete hwf hwf' hout hout' _

end Sys2Proof.Machine
end

section
/-! SUPPORT. Issuing a command and loading its operands (spec/30_encoding.md R107 to R111, R116): the CMD write in either phase,
the accesses of `load`, and a host at `wait`. -/

namespace Sys2Proof.Machine

/-! ### The CMD write -/

/-- A 32-bit write at CMD is served and issues its word (R77, R110). -/
theorem busAccess_cmd (w : Word) (s : State) : busAccess (.write 0x004 4 w) s = (cmdWrite w s, .written) := by
  have hw : (Access.write 4 4 w).wellFormed = true :=
    wellFormed_of_bounds (.inr (.inr rfl)) (Nat.mod_self 4) (by simp [Access.offset, Access.width]) rfl
  rw [busAccess_write hw, deliverWrite, if_pos rfl]

/-- Settles O13: while IDLE the CMD write is an acceptance. -/
theorem commandAcceptance : Obligations.CommandAcceptance := by
  intro s w hidle
  refine ⟨accept w s, by rw [busAccess_cmd, cmdWrite_idle hidle], rfl, rfl, rfl, rfl, rfl, rfl, rfl, outputsZero_accept w s,
    rfl, rfl, rfl, rfl, rfl, rfl, rfl, rfl, rfl, fun i hi => ?_⟩
  exact ⟨get_input_accept w s (by omega), get_input_accept w s (by omega)⟩

/-- Settles O14: while BUSY the CMD write is an overrun. -/
theorem commandOverrunIsDropped : Obligations.CommandOverrunIsDropped := by
  intro s w hbusy
  rw [busAccess_cmd, cmdWrite_busy hbusy]
  rfl

/-! ### Loading a byte string -/

/-- Storing a byte string from byte i of a register or buffer up. -/
def putString (c : Contents) : Nat → List Byte → State → State
  | _, [], s => s
  | i, b :: bs, s => putString c (i + 1) bs (putByte c i b s)

/-- `load` stores the bytes left after the last word one by one (R109). -/
theorem loadStmts_short (off : Nat) (b : Byte) {rest : List Byte} (h : rest.length < 3) :
    loadStmts off (b :: rest) = .wr8 off b :: loadStmts (off + 1) rest := by
  match rest with
  | [] | [_] | [_, _] => rfl
  | _ :: _ :: _ :: _ => simp at h; omega

/-- The lanes of a word made of four bytes (R73). -/
theorem laneOf_wordOfBytes (b0 b1 b2 b3 : Byte) :
    laneOf (wordOfBytes b0 b1 b2 b3) 0 = b0 ∧ laneOf (wordOfBytes b0 b1 b2 b3) 1 = b1 ∧
      laneOf (wordOfBytes b0 b1 b2 b3) 2 = b2 ∧ laneOf (wordOfBytes b0 b1 b2 b3) 3 = b3 := by
  refine ⟨?_, ?_, ?_, ?_⟩ <;> refine BitVec.eq_of_getLsbD_eq fun i hi => ?_ <;>
    simp only [laneOf, wordOfBytes, BitVec.getLsbD_extractLsb', BitVec.getLsbD_append] <;>
    interval_cases i <;> simp

section
variable {q : MapRow} {s : State} {i : Nat}

/-- While IDLE an aligned 4-byte write of four bytes inside an input row stores them (R73). -/
theorem busAccess_write_wordOfBytes (hq : q ∈ addressMap) (hc : q.cls = .input) (hidle : s.phase = .idle)
    (hal : (q.first + i) % 4 = 0) (hi : q.first + i + 3 ≤ q.last) (b0 b1 b2 b3 : Byte) :
    (busAccess (.write (q.first + i) 4 (wordOfBytes b0 b1 b2 b3)) s).1 = putString q.contents i [b0, b1, b2, b3] s := by
  have hb : q.last < 0x1000 ∧ q.first + i ≠ 4 := by fin_cases hq <;> simp at hc ⊢ <;> omega
  have hw : (Access.write (q.first + i) 4 (wordOfBytes b0 b1 b2 b3)).wellFormed = true :=
    wellFormed_of_bounds (.inr (.inr rfl)) hal (by simp only [Access.offset, Access.width]; omega) rfl
  have hbyte : ∀ j < 4, ∀ b t, t.phase = .idle → writeByte (q.first + i + j) b t = putByte q.contents (i + j) b t := by
    intro j hj b t ht
    rw [writeByte_row hq (by omega) b t (.inr ht), Nat.add_assoc, Nat.add_sub_cancel_left]
  obtain ⟨h0, h1, h2, h3⟩ := laneOf_wordOfBytes b0 b1 b2 b3
  rw [busAccess_write_bytes hw hb.2]
  simp only [writeBytes, h0, h1, h2, h3]
  rw [hbyte 0, hbyte 1, hbyte 2, hbyte 3] <;> simp [hidle, putString]

/-- The statements of `load` into an input row from an aligned offset on an IDLE machine store the string (R109): words while
four bytes are left, then bytes. -/
theorem accesses_loadStmts (hq : q ∈ addressMap) (hc : q.cls = .input) (bs : List Byte) (hidle : s.phase = .idle)
    (hal : (q.first + i) % 4 = 0 ∨ bs.length < 4) (hle : q.first + i + bs.length ≤ q.last + 1) :
    accesses ((loadStmts (q.first + i) bs).map Stmt.toAccess) s = putString q.contents i bs s := by
  induction hoff : q.first + i, bs using loadStmts.induct generalizing i s with
  | case1 off b0 b1 b2 b3 rest ih =>
    subst hoff
    simp only [List.length_cons] at hal hle
    have hword := busAccess_write_wordOfBytes (i := i) hq hc hidle (by omega) (by omega) b0 b1 b2 b3
    rw [loadStmts, List.map_cons, accesses, Stmt.toAccess, hword]
    exact ih (s := putString q.contents i [b0, b1, b2, b3] s) (i := i + 4) (by simpa [putString] using hidle) (by omega)
      (by omega) (Nat.add_assoc ..).symm
  | case2 off b rest hshort ih =>
    subst hoff
    have hlen : rest.length < 3 := by
      match rest with
      | [] | [_] | [_, _] => simp
      | b1 :: b2 :: b3 :: rest => exact (hshort b1 b2 b3 rest rfl).elim
    simp only [List.length_cons] at hle
    have hbyte := busAccess_write1_row hq (i := i) (by omega) (b.setWidth 32) hidle (contents_ne_cmd_of_input q hq hc)
    have hlane : (b.setWidth 32).extractLsb' 0 8 = b := laneOf_setWidth b
    rw [loadStmts_short _ b hlen, List.map_cons, accesses, Stmt.toAccess, hbyte, hlane]
    exact ih (i := i + 1) (by simpa using hidle) (.inr (by omega)) (by omega) (Nat.add_assoc ..).symm
  | case3 off => rfl

end

/-- Storing the last bytes of a key over a KEY that holds the first ones leaves the whole key. -/
theorem putString_key (k : Vector Byte 16) {bs : List Byte} {i : Nat} {s : State} (hbs : bs = k.toList.drop i) (hi : i ≤ 16)
    (hpre : ∀ j < i, s.key[j]? = k[j]?) : putString .key i bs s = { s with key := k } := by
  induction bs generalizing i s with
  | nil =>
    have hlen : 16 ≤ i := by simpa using hbs
    have hkey : s.key = k := Vector.ext fun j hj => by simpa [hj] using hpre j (by omega)
    rw [putString, ← hkey]
  | cons b bs ih =>
    have hlt : i < 16 := by
      have := congrArg List.length hbs
      simp at this
      omega
    rw [List.drop_eq_getElem_cons (by simpa using hlt)] at hbs
    obtain ⟨rfl, rfl⟩ := List.cons.inj hbs
    refine ih (s := putByte .key i _ s) rfl hlt fun j hj => ?_
    rcases Nat.lt_succ_iff_lt_or_eq.1 hj with hlo | rfl
    · simpa [putByte, Vector.getElem?_setIfInBounds, hlo.ne'] using hpre j hlo
    · simp [putByte, hlt]

/-- Settles O59: the accesses store the string from byte 0 of KEY, and the string is the whole of KEY. -/
theorem loadKeyStoresTheString : Obligations.LoadKeyStoresTheString := by
  intro s k hidle
  have hq : (⟨0x020, 0x02F, .key, .input, .wo⟩ : MapRow) ∈ addressMap := by decide
  rw [← putString_key k (i := 0) (s := s) rfl (Nat.zero_le _) (by simp)]
  exact accesses_loadStmts (i := 0) hq rfl k.toList hidle (.inl rfl) (by simp)

/-! ### Waiting -/

/-- Settles O60: the round reads the STATUS word, whose bit 0 is BUSY. -/
theorem hostWaitsUntilNotBusy : Obligations.HostWaitsUntilNotBusy := by
  intro s k rest log hk
  have hq : (⟨0x008, 0x00B, .status, .control, .ro⟩ : MapRow) ∈ addressMap := by decide
  have hread : busAccess (.read 0x008 4) s = (s, .data s.statusWord) :=
    busAccess_read_register hq rfl s (by decide) rfl fun i _ => rfl
  have hbit : s.statusWord.getLsbD 0 = s.busy := getLsbD_statusWord s (by decide)
  simp only [hostTurn, hk, HostOp.toAccess, hread, HostAgent.advance, HostOp.repeats, hbit, busy_iff]

end Sys2Proof.Machine
end

section
/-! SUPPORT. The commands of spec/40_block.md: the words of the commands that have one word each, the results of CLEAR and AES,
the S-box, and the cycles a command is BUSY for. -/

namespace Sys2Proof.Machine

/-! ### Commands with one word -/

theorem mem_allInstrs (i : Instr) : i ∈ allInstrs := by
  cases i with
  | ccmEnc m => cases m <;> decide
  | ccmDec m => cases m <;> decide
  | _ => decide

/-- The OP field of a word that decodes is its command's opcode (R100). -/
theorem opcode_of_decode {w : Word} {i : Instr} (h : decode w = .ok i) : w.extractLsb' 0 8 = i.opcode := by
  rw [← encode_of_decode h]
  exact (encode_fields i).2.1

/-- A command that shares its opcode with no other has one word (R102, R104). -/
theorem onlyWord_encode {i : Instr} (h : ∀ j ∈ allInstrs, j.opcode = i.opcode → j = i) : OnlyWord (encode i) i := by
  refine ⟨decode_encode i, fun v hop hne => ?_⟩
  cases hd : decode v with
  | error e => exact ⟨e, rfl⟩
  | ok j =>
    have hj : j.opcode = i.opcode := by
      rw [← opcode_of_decode hd, hop, opcode_of_decode (decode_encode i)]
    have hv : encode j = v := encode_of_decode hd
    rw [h j (mem_allInstrs j) hj] at hv
    exact absurd hv.symm hne

/-! ### CLEAR -/

/-- A success with zero RESULT registers and nothing written to BUF_O leaves zero outputs zero. -/
theorem outputsZero_finish_nil {s : State} (h : OutputsZero s) : OutputsZero (finish zeroBlock zeroBlock 0 [] s) :=
  ⟨rfl, rfl, rfl, fun i hi => (get_bufO_scrubbed _ i).trans (h.bufO i hi)⟩

theorem exec_clear (s : State) : exec .clear s = .next (finish zeroBlock zeroBlock 0 [] s) := exec_ok rfl

/-- STATUS after an accepted CLEAR has completed: DONE and no other bit (R33). -/
theorem statusWord_clear (s : State) : (finish zeroBlock zeroBlock 0 [] (accept 0 s)).statusWord = 0x00000002 := by
  simp only [State.statusWord, State.busy, finish_phase, finish_done, finish_err, finish_errcode, finish_lastop, accept_lastop]
  decide

/-- Settles O35: CLEAR is a success with zero outputs, and acceptance has zeroed BUF_O before it. -/
theorem clearWipesOutputs : Obligations.ClearWipesOutputs := by
  refine ⟨onlyWord_encode (i := .clear) (by decide),
    fun s => ⟨_, exec_clear s, succeeded_finish_nil s _ _ _, outputsZero_finish_nil⟩, fun s hidle => ?_⟩
  have hturn : engineTurn (accept 0 s) = exec .clear (accept 0 s) :=
    engineTurn_of_decode (accept_phase 0 s) (decode_encode .clear)
  rw [busAccess_cmd, cmdWrite_idle hidle]
  exact ⟨_, hturn.trans (exec_clear _), outputsZero_finish_nil (outputsZero_accept 0 s), inputsZero_finish .., rfl,
    statusWord_clear s⟩

/-! ### AES -/

/-- Byte i of the AES operand (R142). -/
theorem blockAt_blockA (s : State) {i : Nat} (h : i < 16) : blockAt s.blockA i = Memory.get s.mem (0x400 + i) := by
  rw [State.blockA, blockAt_blockOf _ h, Memory.getD_load _ _ _ h]
  rfl

theorem resultOf_aes_ok {s : State} (h : s.lenA.toNat = 16) :
    resultOf .aes s = .ok (encryptBlock s.key s.blockA) zeroBlock 0 [] := by
  rw [resultOf, aesResult, if_neg (not_not.2 h)]

theorem resultOf_aes_error {s : State} (h : s.lenA.toNat ≠ 16) : resultOf .aes s = .error .length := by
  rw [resultOf, aesResult, if_pos h]

/-- Settles O36: the result of AES by LEN_A, completed. -/
theorem aesEncryptsOneBlock : Obligations.AesEncryptsOneBlock :=
  ⟨onlyWord_encode (i := .aes) (by decide),
    fun s h => ⟨_, s.blockA, exec_ok (resultOf_aes_ok h), fun _ hi => blockAt_blockA s hi, succeeded_finish_nil s _ _ _⟩,
    fun s h => ⟨_, exec_error (resultOf_aes_error h), failed_takeError s .length⟩⟩

/-! ### Cycles -/

/-- Two timed machines at the same place of a command: in the same phase, with as many cycles left. -/
structure Timed.InStep (t t' : Timed) : Prop where
  phase : t.core.phase = t'.core.phase
  left : t.left = t'.left

section
variable {t t' : Timed}

/-- A clock cycle keeps two machines in step: it does nothing in both, counts in both, or completes both commands. -/
theorem Timed.InStep.after_clock (h : t.InStep t') :
    ∃ u u', timedClock t = .next u ∧ timedClock t' = .next u' ∧ u.InStep u' := by
  cases hp : t.core.phase with
  | idle => exact ⟨t, t', timedClock_idle hp, timedClock_idle (h.phase ▸ hp), h⟩
  | busy =>
    have hp' : t'.core.phase = .busy := h.phase ▸ hp
    by_cases hl : t.left ≤ 1
    · obtain ⟨r, hr⟩ := engineTurn_busy hp
      obtain ⟨r', hr'⟩ := engineTurn_busy hp'
      exact ⟨_, _, timedClock_completes hp hl hr, timedClock_completes hp' (h.left ▸ hl) hr', by simp, rfl⟩
    · have hlt : 1 < t.left := Nat.lt_of_not_le hl
      exact ⟨_, _, timedClock_counts hp hlt, timedClock_counts hp' (h.left ▸ hlt), h.phase, congrArg (· - 1) h.left⟩

/-- Two machines in step are so after any number of clock cycles. -/
theorem Timed.InStep.after_clocks (h : t.InStep t') (n : Nat) :
    ∃ v v', timedClocks n t = .next v ∧ timedClocks n t' = .next v' ∧ v.InStep v' := by
  induction n generalizing t t' with
  | zero => exact ⟨t, t', rfl, rfl, h⟩
  | succ n ih =>
    obtain ⟨u, u', hu, hu', hstep⟩ := h.after_clock
    obtain ⟨v, v', hv, hv', hend⟩ := ih hstep
    exact ⟨v, v', by simpa only [timedClocks, hu] using hv, by simpa only [timedClocks, hu'] using hv', hend⟩

/-- Accepting one word with equal lengths puts two machines in step: LATENCY has no other argument (R8, R312). -/
theorem Timed.inStep_accept (l : Config.Latency) (w : Word) (hp : t.core.phase = .idle) (hp' : t'.core.phase = .idle)
    (hA : t.core.lenA = t'.core.lenA) (hB : t.core.lenB = t'.core.lenB) :
    (timedAccess l (.write 0x004 4 w) t).1.InStep (timedAccess l (.write 0x004 4 w) t').1 := by
  rw [timedAccess_accept l hp, timedAccess_accept l hp', hA, hB]
  exact ⟨rfl, rfl⟩

end

/-- Settles O57: acceptance puts the machines in step, and clock cycles keep them so. -/
theorem latencyDoesNotDependOnSecrets : Obligations.LatencyDoesNotDependOnSecrets := by
  intro l t t' w hp hp' hA hB n
  obtain ⟨v, v', hv, hv', hend⟩ := (Timed.inStep_accept l w hp hp' hA hB).after_clocks n
  exact ⟨v, v', hv, hv', hend.phase⟩

/-! ### The S-box -/

/-- The table of R134 and the formula of R133 agree, entry by entry. -/
theorem sbox_eq_sboxFormula : ∀ a : Byte, sbox a = sboxFormula a := by decide +kernel

/-- The power a^254 is the inverse of a (R132, R133). -/
theorem gmul_gfInv : ∀ a : Byte, a ≠ 0 → gmul a (gfInv a) = 1 := by decide +kernel

theorem gfInv_zero : gfInv 0 = 0 := by decide +kernel

/-- Settles O55: the table, the inverse, and the inverse of 0. -/
theorem sboxTableIsItsFormula : Obligations.SboxTableIsItsFormula :=
  fun a => ⟨sbox_eq_sboxFormula a, gmul_gfInv a, gfInv_zero⟩

end Sys2Proof.Machine
end

section
/-! SUPPORT. The commands of spec/41_mac.md: CMAC (R175) and S1 (R176), with what every command that needs LEN_A in 1..1024
(R264) does at each length. -/

namespace Sys2Proof.Machine

/-! ### Commands that need LEN_A in 1..1024 -/

section
variable {i : Instr} {s : State}

/-- A command whose one check is LEN_A in 1..1024 and which writes nothing to BUF_O succeeds inside the range. -/
theorem exec_succeeded_of_lenA {r0 r1 : Block} {r2 : Byte}
    (h : resultOf i s = if lengthOk s.lenA then .ok r0 r1 r2 [] else .error .length)
    (hlo : 1 ≤ s.lenA.toNat) (hhi : s.lenA.toNat ≤ 1024) :
    ∃ t, exec i s = .next t ∧ Succeeded s t r0 r1 r2 [] := by
  rw [if_pos ((lengthOk_iff _).2 ⟨hlo, hhi⟩)] at h
  exact ⟨_, exec_ok h, succeeded_finish_nil s r0 r1 r2⟩

/-- A command whose one check is LEN_A in 1..1024 fails with ERR_LENGTH outside the range (R264). -/
theorem exec_failed_of_lenA {r : CmdResult} (h : resultOf i s = if lengthOk s.lenA then r else .error .length)
    (hl : s.lenA.toNat = 0 ∨ 1024 < s.lenA.toNat) : ∃ t, exec i s = .next t ∧ Failed s t 1 := by
  rw [(lengthOk_eq_false_iff _).2 hl] at h
  exact ⟨_, exec_error h, failed_takeError s .length⟩

end

/-! ### CMAC and S1 -/

theorem resultOf_cmac (s : State) : resultOf .cmac s =
    if lengthOk s.lenA then .ok (cmac s.key s.operandA) zeroBlock 0 [] else .error .length := rfl

/-- The result of S1, with s1 written out as the CMAC under the zero key (R174): KEY does not occur in it. -/
theorem resultOf_s1 (s : State) : resultOf .s1 s =
    if lengthOk s.lenA then .ok (cmac zeroBlock s.operandA) zeroBlock 0 [] else .error .length := rfl

/-- Settles O37: the result of CMAC by LEN_A, completed. -/
theorem cmacTagsTheMessage : Obligations.CmacTagsTheMessage :=
  ⟨onlyWord_encode (i := .cmac) (by decide), fun s => exec_succeeded_of_lenA (resultOf_cmac s),
    fun s => exec_failed_of_lenA (resultOf_cmac s)⟩

/-- Settles O38: the result of S1 by LEN_A, completed. -/
theorem saltIsCmacUnderZeroKey : Obligations.SaltIsCmacUnderZeroKey :=
  ⟨onlyWord_encode (i := .s1) (by decide), fun s => exec_succeeded_of_lenA (resultOf_s1 s),
    fun s => exec_failed_of_lenA (resultOf_s1 s)⟩

end Sys2Proof.Machine
end

section
/-! SUPPORT. The commands of spec/42_ccm.md: CCM_ENC (R197) and CCM_DEC (R198), what a failed decryption leaves, and the round
trip of R199. -/

namespace Sys2Proof.Machine

/-! ### Commands with two words -/

/-- A word with the OP field of i that encodes no command of that opcode is illegal (R102, R104). -/
theorem decode_error_of_opcode {v : Word} {i : Instr} (hop : v.extractLsb' 0 8 = i.opcode)
    (h : ∀ j ∈ allInstrs, j.opcode = i.opcode → encode j ≠ v) : ∃ e, decode v = .error e := by
  cases hd : decode v with
  | error e => exact ⟨e, rfl⟩
  | ok j => exact absurd (encode_of_decode hd) (h j (mem_allInstrs j) ((opcode_of_decode hd).symm.trans hop))

/-- Two commands that share their opcode with no third have the two words (R101, R102, R104). -/
theorem onlyWords_encode {i4 i8 : Instr} (h : ∀ j ∈ allInstrs, j.opcode = i4.opcode → j = i4 ∨ j = i8) :
    OnlyWords (encode i4) (encode i8) i4 i8 := by
  refine ⟨decode_encode i4, decode_encode i8, fun v hop h4 h8 => ?_⟩
  refine decode_error_of_opcode (hop.trans (opcode_of_decode (decode_encode i4))) fun j hj hjop he => ?_
  rcases h j hj hjop with rfl | rfl
  · exact h4 he.symm
  · exact h8 he.symm

/-! ### The MIC in RESULT0 -/

/-- Byte i of the MIC is byte i of T XOR byte i of S_0 (R195). -/
theorem getD_ccmMic (k : Block) (n : Vector Byte 13) {m i : Nat} (hm : m ≤ 16) (p : List Byte) (hi : i < m) :
    (ccmMic k n m p).getD i 0 = blockAt (cbcmac k n m p) i ^^^ blockAt (ccmStream k n 0) i := by
  rw [ccmMic, getD_xorBytes (by simp; omega) (by simp; omega), getD_take _ hi, getD_take _ hi]
  rfl

/-- A string of at most 16 bytes is the front of its block. -/
theorem take_blockOf {l : List Byte} {n : Nat} (hl : l.length = n) (h : n ≤ 16) : (blockOf l).toList.take n = l := by
  refine List.ext_getElem (by simp; omega) fun i hn hi => ?_
  have h16 : i < 16 := by omega
  simpa [blockAt, hi, h16] using blockAt_blockOf l h16

/-! ### What a completion leaves in the outputs -/

section
variable {s t : State}

/-- A command with a success for its result has completed with it. -/
theorem succeeded_of_exec {i : Instr} {r0 r1 : Block} {r2 : Byte} {o : List Byte} (hwf : Memory.wf s.mem = true)
    (hr : resultOf i s = .ok r0 r1 r2 o) (he : exec i s = .next t) : Succeeded s t r0 r1 r2 o := by
  rw [exec_ok hr] at he
  cases he
  exact succeeded_finish hwf r0 r1 r2 o

/-- The string a success writes is read back from BUF_O (R113). -/
theorem Succeeded.load_bufO {r0 r1 : Block} {r2 : Byte} {o : List Byte} (h : Succeeded s t r0 r1 r2 o) :
    Memory.load t.mem 0xC00 o.length = o := by
  refine List.ext_getElem (by simp) fun i _ hi => ?_
  simpa [Memory.load, hi] using h.bufO i hi

/-- A failure leaves zero outputs zero (R270). -/
theorem Failed.outputsZero {n : BitVec 4} (h : Failed s t n) (hs : OutputsZero s) : OutputsZero t :=
  ⟨h.result0.trans hs.result0, h.result1.trans hs.result1, h.result2.trans hs.result2,
    fun i hi => (h.bufO i).trans (hs.bufO i hi)⟩

/-- A command that ends with ERR = 1 has failed with the code of its error (R270). -/
theorem failed_of_exec_err {i : Instr} (he : exec i s = .next t) (herr : t.err = true) : ∃ c : ErrCode, Failed s t c.code := by
  rcases exec_cases he with ⟨r0, r1, r2, o, -, rfl⟩ | ⟨c, -, rfl⟩
  · exact absurd herr (by simp)
  · exact ⟨c, failed_takeError s c⟩

end

/-! ### CCM_ENC -/

section
variable {s : State}

theorem resultOf_ccmEnc_ok (m : MicSize) (hl : s.lenA.toNat ≤ 1024) : resultOf (.ccmEnc m) s =
    .ok (blockOf (ccmMic s.key s.nonce m.bytes s.operandA)) zeroBlock 0 (ctr s.key s.nonce s.operandA) :=
  if_pos ((ccmLengthOk_iff _).2 hl)

theorem resultOf_ccmEnc_length (m : MicSize) (hl : 1024 < s.lenA.toNat) : resultOf (.ccmEnc m) s = .error .length := by
  rw [resultOf, ccmEncResult, (ccmLengthOk_eq_false_iff _).2 hl, if_neg Bool.false_ne_true]

/-- Byte i of the CTR transform of operand A (R192, R194). -/
theorem getD_ctr_operandA (k : Block) (n : Vector Byte 13) {i : Nat} (hi : i < s.lenA.toNat) :
    (ctr k n s.operandA).getD i 0 =
      Memory.get s.mem (0x400 + i) ^^^ blockAt (encryptBlock k (ccmCounter n (i / 16 + 1))) (i % 16) := by
  rw [getD_ctr k n (by rwa [length_operandA]), getD_operandA s hi]
  rfl

/-- Byte i of a MIC in its block, inside the M bytes (R195, R197). -/
theorem blockAt_blockOf_ccmMic (k : Block) (n : Vector Byte 13) (m : MicSize) (p : List Byte) {i : Nat} (hi : i < m.bytes) :
    blockAt (blockOf (ccmMic k n m.bytes p)) i =
      blockAt (cbcmac k n m.bytes p) i ^^^ blockAt (encryptBlock k (ccmCounter n 0)) i := by
  rw [blockAt_blockOf _ (hi.trans_le (micBytes_le m)), getD_ccmMic k n (micBytes_le m) p hi]
  rfl

/-- The block of a MIC is zero after its M bytes (R197). -/
theorem blockAt_blockOf_ccmMic_rest (k : Block) (n : Vector Byte 13) (m : MicSize) (p : List Byte) {i : Nat} (h16 : i < 16)
    (hi : m.bytes ≤ i) : blockAt (blockOf (ccmMic k n m.bytes p)) i = 0 := by
  rw [blockAt_blockOf _ h16, List.getD_eq_default _ _ (by rwa [length_ccmMic k n (micBytes_le m)])]

/-! ### CCM_DEC -/

theorem resultOf_ccmDec_ok (m : MicSize) (hl : s.lenA.toNat ≤ 1024)
    (hmic : ccmMic s.key s.nonce m.bytes (ctr s.key s.nonce s.operandA) = s.micIn.toList.take m.bytes) :
    resultOf (.ccmDec m) s = .ok zeroBlock zeroBlock 0 (ctr s.key s.nonce s.operandA) := by
  rw [resultOf, ccmDecResult, if_pos ((ccmLengthOk_iff _).2 hl)]
  exact if_pos ((micEqual_receivedMic m s _).2 hmic)

theorem resultOf_ccmDec_auth (m : MicSize) (hl : s.lenA.toNat ≤ 1024)
    (hmic : ccmMic s.key s.nonce m.bytes (ctr s.key s.nonce s.operandA) ≠ s.micIn.toList.take m.bytes) :
    resultOf (.ccmDec m) s = .error .auth := by
  rw [resultOf, ccmDecResult, if_pos ((ccmLengthOk_iff _).2 hl)]
  exact if_neg fun h => hmic ((micEqual_receivedMic m s _).1 h)

theorem resultOf_ccmDec_length (m : MicSize) (hl : 1024 < s.lenA.toNat) : resultOf (.ccmDec m) s = .error .length := by
  rw [resultOf, ccmDecResult, (ccmLengthOk_eq_false_iff _).2 hl, if_neg Bool.false_ne_true]

end

/-! ### The statements -/

/-- Settles O39: the result of CCM_ENC by LEN_A, completed, and its strings byte by byte. -/
theorem ccmEncEncryptsAndTags : Obligations.CcmEncEncryptsAndTags := by
  refine ⟨onlyWords_encode (i4 := .ccmEnc .m4) (i8 := .ccmEnc .m8) (by decide), fun m s hwf hl => ?_,
    fun m s hl => ⟨_, exec_error (resultOf_ccmEnc_length m hl), failed_takeError s .length⟩⟩
  exact ⟨_, _, _, exec_ok (resultOf_ccmEnc_ok m hl), succeeded_finish hwf _ _ _ _, by simp,
    fun _ hi => getD_ctr_operandA s.key s.nonce hi, fun _ hi => blockAt_blockOf_ccmMic _ _ m _ hi,
    fun _ h16 hi => blockAt_blockOf_ccmMic_rest _ _ m _ h16 hi⟩

/-- Settles O40: the result of CCM_DEC by LEN_A and by the MIC over the plaintext, completed. -/
theorem ccmDecDecryptsOrFails : Obligations.CcmDecDecryptsOrFails :=
  ⟨onlyWords_encode (i4 := .ccmDec .m4) (i8 := .ccmDec .m8) (by decide),
    fun m _ hwf hl hmic => ⟨_, exec_ok (resultOf_ccmDec_ok m hl hmic), succeeded_finish hwf _ _ _ _⟩,
    fun m s hl hmic => ⟨_, exec_error (resultOf_ccmDec_auth m hl hmic), failed_takeError s .auth⟩,
    fun m s hl => ⟨_, exec_error (resultOf_ccmDec_length m hl), failed_takeError s .length⟩⟩

/-- Settles O49: ERR = 1 is a failed completion, and that leaves the outputs as they were. -/
theorem failedDecryptionRevealsNothing : Obligations.FailedDecryptionRevealsNothing := by
  intro m s t hs he herr
  obtain ⟨c, hf⟩ := failed_of_exec_err he herr
  exact hf.outputsZero hs

/-- Settles O53: operand A of the decryption is the ciphertext, the CTR transform takes it back to the plaintext, and the MIC over
that is the one in RESULT0. -/
theorem ccmRoundTrip : Obligations.CcmRoundTrip := by
  intro m s t s' hwf hwf' hl he hkey hnonce hlen hbuf hmicIn
  have henc := succeeded_of_exec hwf (resultOf_ccmEnc_ok m hl) he
  have hsent : s'.operandA = ctr s.key s.nonce s.operandA := by
    have hout := henc.load_bufO
    rw [length_ctr, length_operandA] at hout
    rw [State.operandA, hlen]
    exact (Memory.load_congr hbuf).trans hout
  have hplain : ctr s'.key s'.nonce s'.operandA = s.operandA := by rw [hkey, hnonce, hsent, ctr_ctr]
  have hmic : ccmMic s'.key s'.nonce m.bytes (ctr s'.key s'.nonce s'.operandA) = s'.micIn.toList.take m.bytes := by
    rw [hplain, hkey, hnonce, hmicIn, henc.result0, take_blockOf (length_ccmMic _ _ (micBytes_le m) _) (micBytes_le m)]
  have hdec := resultOf_ccmDec_ok m (hlen ▸ hl) hmic
  rw [hplain] at hdec
  have hout := succeeded_of_exec hwf' hdec (exec_ok hdec)
  exact ⟨_, exec_ok hdec, hout.done, hout.err, fun i hi =>
    (hout.bufO i (by rwa [length_operandA])).trans (getD_operandA s hi)⟩

end Sys2Proof.Machine
end

section
/-! SUPPORT. The commands of spec/43_kdf.md: K1 (R225), K2 (R226), K3 (R227) and K4 (R228), with what a command that needs both
lengths in 1..1024 (R264) does at each pair of lengths. -/

namespace Sys2Proof.Machine

/-! ### Commands that need LEN_A and LEN_B in 1..1024 -/

section
variable {i : Instr} {s : State}

/-- A command whose one check is both lengths in 1..1024 and which writes nothing to BUF_O succeeds inside the ranges. -/
theorem exec_succeeded_of_lens {r0 r1 : Block} {r2 : Byte}
    (h : resultOf i s = if lengthOk s.lenA ∧ lengthOk s.lenB then .ok r0 r1 r2 [] else .error .length)
    (hloA : 1 ≤ s.lenA.toNat) (hhiA : s.lenA.toNat ≤ 1024) (hloB : 1 ≤ s.lenB.toNat) (hhiB : s.lenB.toNat ≤ 1024) :
    ∃ t, exec i s = .next t ∧ Succeeded s t r0 r1 r2 [] := by
  rw [if_pos ⟨(lengthOk_iff _).2 ⟨hloA, hhiA⟩, (lengthOk_iff _).2 ⟨hloB, hhiB⟩⟩] at h
  exact ⟨_, exec_ok h, succeeded_finish_nil s r0 r1 r2⟩

/-- A command whose one check is both lengths in 1..1024 fails with ERR_LENGTH when either is outside (R264). -/
theorem exec_failed_of_lens {r : CmdResult}
    (h : resultOf i s = if lengthOk s.lenA ∧ lengthOk s.lenB then r else .error .length)
    (hl : s.lenA.toNat = 0 ∨ 1024 < s.lenA.toNat ∨ s.lenB.toNat = 0 ∨ 1024 < s.lenB.toNat) :
    ∃ t, exec i s = .next t ∧ Failed s t 1 := by
  have hout : ¬(lengthOk s.lenA ∧ lengthOk s.lenB) := by simp only [lengthOk_iff]; omega
  rw [if_neg hout] at h
  exact ⟨_, exec_error h, failed_takeError s .length⟩

end

/-! ### The results, by the lengths -/

/-- The result of K1, with k1 written out as the CMAC of P under the CMAC of N under the salt (R220). -/
theorem resultOf_k1 (s : State) : resultOf .k1 s =
    if lengthOk s.lenA ∧ lengthOk s.lenB then .ok (cmac (cmac s.key s.operandA) s.operandB) zeroBlock 0 []
    else .error .length := rfl

theorem resultOf_k2 (s : State) : resultOf .k2 s =
    if lengthOk s.lenA ∧ lengthOk s.lenB then
      .ok (k2T2 s.operandA s.operandB) (k2T3 s.operandA s.operandB) (k2Nid s.operandA s.operandB) []
    else .error .length := rfl

theorem resultOf_k3 (s : State) : resultOf .k3 s =
    if lengthOk s.lenA then .ok (blockOf (k3Fn s.operandA)) zeroBlock 0 [] else .error .length := rfl

theorem resultOf_k4 (s : State) : resultOf .k4 s =
    if lengthOk s.lenA then .ok (blockOf [k4Fn s.operandA]) zeroBlock 0 [] else .error .length := rfl

/-! ### The bytes of the results -/

/-- The byte of NID has bit 7 = 0 (R221, R226). -/
theorem msb_k2Nid (n p : List Byte) : (k2Nid n p).msb = false := by
  rw [k2Nid, BitVec.msb_and, show (0x7F : Byte).msb = false from rfl, Bool.and_false]

/-- The low 64 bits of a block, as a block: its bytes 8 to 15 in front (R222, R227). -/
theorem blockAt_blockOf_drop8 (c : Block) {i : Nat} (hi : i < 8) :
    blockAt (blockOf (c.toList.drop 8)) i = blockAt c (8 + i) := by
  rw [blockAt_blockOf _ (by omega), blockAt, List.getD_eq_getElem?_getD, List.getElem?_drop, List.getD_eq_getElem?_getD]

/-- A block is zero after the end of its string (R227, R228). -/
theorem blockAt_blockOf_rest {l : List Byte} {i : Nat} (h16 : i < 16) (hi : l.length ≤ i) : blockAt (blockOf l) i = 0 := by
  rw [blockAt_blockOf _ h16, List.getD_eq_default _ _ hi]

/-- The byte of AID is a 6-bit number (R223). -/
theorem k4Fn_lt (n : List Byte) : (k4Fn n).toNat < 64 := by
  rw [k4Fn, BitVec.toNat_and]
  exact Nat.and_lt_two_pow (n := 6) _ (by decide)

/-! ### The statements -/

/-- Settles O41: the result of K1 by LEN_A and LEN_B, completed. -/
theorem k1DerivesKey : Obligations.K1DerivesKey :=
  ⟨onlyWord_encode (i := .k1) (by decide), fun s => exec_succeeded_of_lens (resultOf_k1 s),
    fun s => exec_failed_of_lens (resultOf_k1 s)⟩

/-- Settles O42: the result of K2 by LEN_A and LEN_B, completed; T, T1, T2 and T3 are the model's own. -/
theorem k2DerivesCredentials : Obligations.K2DerivesCredentials := by
  refine ⟨onlyWord_encode (i := .k2) (by decide), fun s hloA hhiA hloB hhiB => ?_,
    fun s => exec_failed_of_lens (resultOf_k2 s)⟩
  obtain ⟨t, he, ht⟩ := exec_succeeded_of_lens (resultOf_k2 s) hloA hhiA hloB hhiB
  have hmsb : t.result2.msb = false := ht.result2 ▸ msb_k2Nid s.operandA s.operandB
  exact ⟨t, k2T s.operandA, k2T1 s.operandA s.operandB, k2T2 s.operandA s.operandB, k2T3 s.operandA s.operandB, he,
    rfl, rfl, rfl, rfl, ht, hmsb⟩

/-- Settles O43: the result of K3 by LEN_A, completed, and the bytes of RESULT0. -/
theorem k3DerivesNetworkId : Obligations.K3DerivesNetworkId := by
  refine ⟨onlyWord_encode (i := .k3) (by decide), fun s hlo hhi => ?_, fun s => exec_failed_of_lenA (resultOf_k3 s)⟩
  obtain ⟨t, he, ht⟩ := exec_succeeded_of_lenA (resultOf_k3 s) hlo hhi
  exact ⟨t, _, _, he, rfl, ht, fun _ hi => blockAt_blockOf_drop8 _ hi,
    fun i hi => blockAt_blockOf_rest (by omega) (by simp [k3Fn])⟩

/-- Settles O44: the result of K4 by LEN_A, completed, and the bytes of RESULT0. -/
theorem k4DerivesApplicationId : Obligations.K4DerivesApplicationId := by
  refine ⟨onlyWord_encode (i := .k4) (by decide), fun s hlo hhi => ?_, fun s => exec_failed_of_lenA (resultOf_k4 s)⟩
  obtain ⟨t, he, ht⟩ := exec_succeeded_of_lenA (resultOf_k4 s) hlo hhi
  have hfirst : blockAt (blockOf [k4Fn s.operandA]) 0 = k4Fn s.operandA := blockAt_blockOf _ (by decide)
  exact ⟨t, _, _, he, rfl, ht, hfirst, hfirst ▸ k4Fn_lt s.operandA, fun _ h16 hi => blockAt_blockOf_rest h16 hi⟩

end Sys2Proof.Machine
end

section
/-! SUPPORT. The commands of spec/44_obfuscation.md: OBF (R244) and DEOBF (R245), which have one effect, and the inverse of
R243. -/

namespace Sys2Proof.Machine

/-! ### OBF and DEOBF -/

section
variable {s : State}

theorem resultOf_obf (s : State) : resultOf .obf s =
    if lengthOk s.lenA then .ok zeroBlock zeroBlock 0 (obfuscate s.operandA s.prand s.ivindex s.key)
    else .error .length := rfl

theorem resultOf_obf_ok (hlo : 1 ≤ s.lenA.toNat) (hhi : s.lenA.toNat ≤ 1024) :
    resultOf .obf s = .ok zeroBlock zeroBlock 0 (obfuscate s.operandA s.prand s.ivindex s.key) := by
  rw [resultOf_obf, if_pos ((lengthOk_iff _).2 ⟨hlo, hhi⟩)]

/-- DEOBF is the identical transform (R245). -/
theorem resultOf_deobf (s : State) : resultOf .deobf s = resultOf .obf s := rfl

theorem exec_deobf (s : State) : exec .deobf s = exec .obf s := by
  rw [exec_eq, exec_eq, resultOf_deobf]

/-- Byte i of the transform of operand A, with PECB written out (R241, R242). -/
theorem getD_obfuscate_operandA {i : Nat} (hi : i < s.lenA.toNat) :
    (obfuscate s.operandA s.prand s.ivindex s.key).getD i 0 = if i < 6 then
      Memory.get s.mem (0x400 + i) ^^^ blockAt (encryptBlock s.key (privacyPlaintext s.ivindex s.prand)) i
      else Memory.get s.mem (0x400 + i) := by
  rw [getD_obfuscate _ _ _ (by rwa [length_operandA]), getD_operandA s hi, pecb]

end

/-- The string a success wrote, sent back as `BUF_A[0..LEN_A)`, is operand A. -/
theorem Succeeded.operandA_sentBack {s t s' : State} {r0 r1 : Block} {r2 : Byte} {o : List Byte}
    (h : Succeeded s t r0 r1 r2 o) (hlen : s'.lenA.toNat = o.length)
    (hbuf : ∀ i < o.length, Memory.get s'.mem (0x400 + i) = Memory.get t.mem (0xC00 + i)) : s'.operandA = o := by
  rw [State.operandA, hlen]
  exact (Memory.load_congr hbuf).trans h.load_bufO

/-! ### The statements -/

/-- Settles O45: the result of OBF by LEN_A, completed, and its string byte by byte. -/
theorem obfMasksTheHeader : Obligations.ObfMasksTheHeader :=
  ⟨onlyWord_encode (i := .obf) (by decide),
    fun _ hwf hlo hhi => ⟨_, _, exec_ok (resultOf_obf_ok hlo hhi), succeeded_finish hwf _ _ _ _, by simp,
      fun _ hi => getD_obfuscate_operandA hi⟩,
    fun s => exec_failed_of_lenA (resultOf_obf s)⟩

/-- Settles O46: DEOBF has a word of its own and is OBF in everything else. -/
theorem deobfMasksTheHeader : Obligations.DeobfMasksTheHeader := by
  obtain ⟨-, hok, hfail⟩ := obfMasksTheHeader
  refine ⟨onlyWord_encode (i := .deobf) (by decide), fun s hwf hlo hhi => ?_, fun s hl => exec_deobf s ▸ hfail s hl⟩
  obtain ⟨t, o, he, ht⟩ := hok s hwf hlo hhi
  exact ⟨t, o, (exec_deobf s).trans he, he, ht⟩

/-- Settles O54: operand A of DEOBF is what OBF wrote, and the transform takes it back to the data. -/
theorem obfuscationInverse : Obligations.ObfuscationInverse := by
  intro s t s' hwf hwf' hlo hhi he hkey hiv hprand hlen hbuf
  have hobf := succeeded_of_exec hwf (resultOf_obf_ok hlo hhi) he
  have hsent : s'.operandA = obfuscate s.operandA s.prand s.ivindex s.key :=
    hobf.operandA_sentBack (by simp [hlen]) (by simpa using hbuf)
  have hback : resultOf .deobf s' = .ok zeroBlock zeroBlock 0 s.operandA := by
    rw [resultOf_deobf, resultOf_obf_ok (hlen ▸ hlo) (hlen ▸ hhi), hkey, hiv, hprand, hsent, obfuscate_obfuscate]
  have hout := succeeded_of_exec hwf' hback (exec_ok hback)
  exact ⟨_, exec_ok hback, hout.done, fun i hi =>
    (hout.bufO i (by rwa [length_operandA])).trans (getD_operandA s hi)⟩

end Sys2Proof.Machine
end

section
/-! SUPPORT. The command errors of spec/60_exceptions.md (R260 to R265): which result ends in which ERRCODE, when a command's
result is an error, and the error of an illegal word. -/

namespace Sys2Proof.Machine

/-! ### ERRCODE and the result -/

/-- The three codes of R261 differ. -/
theorem errCode_code_inj {c d : ErrCode} : c.code = d.code ↔ c = d := by cases c <;> cases d <;> decide

/-- ERRCODE 0 is no error (R261). -/
theorem errCode_code_ne_zero (c : ErrCode) : c.code ≠ 0 := by cases c <;> decide

/-- A completed command shows the code of an error exactly if that error is its result. -/
theorem errcode_of_exec {i : Instr} {s t : State} (he : exec i s = .next t) (c : ErrCode) :
    t.errcode = c.code ↔ resultOf i s = .error c := by
  rcases exec_cases he with ⟨r0, r1, r2, o, hr, rfl⟩ | ⟨d, hr, rfl⟩ <;> rw [hr]
  · exact iff_of_false (errCode_code_ne_zero c).symm (by simp)
  · simp [errCode_code_inj]

/-! ### When a result is an error -/

section
variable {i : Instr} {s : State} {r0 r1 : Block} {r2 : Byte} {o : List Byte} {c : ErrCode}

/-- A result whose one check is p is an error exactly if p fails, and then it is ERR_LENGTH. -/
theorem error_iff_of_check {p : Prop} [Decidable p]
    (h : resultOf i s = if p then .ok r0 r1 r2 o else .error .length) :
    resultOf i s = .error c ↔ c = .length ∧ ¬p := by
  rw [h]
  split
  · next hp => simp [hp]
  · next hp => simp [hp, eq_comm]

/-- With LEN_A in 1..1024 for its one check. -/
theorem error_iff_of_lenA (h : resultOf i s = if lengthOk s.lenA then .ok r0 r1 r2 o else .error .length) :
    resultOf i s = .error c ↔ c = .length ∧ (s.lenA.toNat = 0 ∨ 1024 < s.lenA.toNat) := by
  rw [error_iff_of_check h, Bool.not_eq_true, lengthOk_eq_false_iff]

/-- With both lengths in 1..1024 for its one check. -/
theorem error_iff_of_lens
    (h : resultOf i s = if lengthOk s.lenA ∧ lengthOk s.lenB then .ok r0 r1 r2 o else .error .length) :
    resultOf i s = .error c ↔ c = .length ∧
      (s.lenA.toNat = 0 ∨ 1024 < s.lenA.toNat ∨ s.lenB.toNat = 0 ∨ 1024 < s.lenB.toNat) := by
  have hout : ¬(lengthOk s.lenA ∧ lengthOk s.lenB) ↔
      s.lenA.toNat = 0 ∨ 1024 < s.lenA.toNat ∨ s.lenB.toNat = 0 ∨ 1024 < s.lenB.toNat := by
    simp only [lengthOk_iff]
    omega
  rw [error_iff_of_check h, hout]

end

/-- When a command raises ERR_AUTH: it is CCM_DEC, its length passes and the MIC over the plaintext is not the received one
(R265). -/
def AuthFails (i : Instr) (s : State) : Prop :=
  ∃ m, i = .ccmDec m ∧ s.lenA.toNat ≤ 1024 ∧
    ccmMic s.key s.nonce m.bytes (ctr s.key s.nonce s.operandA) ≠ s.micIn.toList.take m.bytes

theorem authFails_ccmDec (m : MicSize) (s : State) : AuthFails (.ccmDec m) s ↔ s.lenA.toNat ≤ 1024 ∧
    ccmMic s.key s.nonce m.bytes (ctr s.key s.nonce s.operandA) ≠ s.micIn.toList.take m.bytes := by
  simp [AuthFails]

/-- CCM_DEC checks its length, then the MIC (R198). -/
theorem resultOf_ccmDec_error_iff (m : MicSize) (s : State) (c : ErrCode) : resultOf (.ccmDec m) s = .error c ↔
    (c = .length ∧ 1024 < s.lenA.toNat) ∨ (c = .auth ∧ AuthFails (.ccmDec m) s) := by
  rw [authFails_ccmDec]
  rcases Nat.lt_or_ge 1024 s.lenA.toNat with hl | hl
  · rw [resultOf_ccmDec_length m hl]
    simp [hl, eq_comm]
  · by_cases hmic : ccmMic s.key s.nonce m.bytes (ctr s.key s.nonce s.operandA) = s.micIn.toList.take m.bytes
    · rw [resultOf_ccmDec_ok m hl hmic]
      simp [hl, hmic]
    · rw [resultOf_ccmDec_auth m hl hmic]
      simp [hl, hmic, eq_comm]

/-- Every command but CCM_DEC checks its lengths alone (R264). -/
theorem resultOf_error_iff_length {i : Instr} (hi : ∀ m, i ≠ .ccmDec m) (s : State) (c : ErrCode) :
    resultOf i s = .error c ↔ c = .length ∧ LengthFails i s := by
  cases i with
  | clear => simp [resultOf, clearResult, LengthFails]
  | aes =>
    by_cases hl : s.lenA.toNat = 16
    · simp [resultOf_aes_ok hl, LengthFails, hl]
    · simp [resultOf_aes_error hl, LengthFails, hl, eq_comm]
  | cmac => exact error_iff_of_lenA (resultOf_cmac s)
  | s1 => exact error_iff_of_lenA (resultOf_s1 s)
  | ccmEnc m =>
    rcases Nat.lt_or_ge 1024 s.lenA.toNat with hl | hl
    · simp [resultOf_ccmEnc_length m hl, LengthFails, hl, eq_comm]
    · simp [resultOf_ccmEnc_ok m hl, LengthFails, hl]
  | ccmDec m => exact absurd rfl (hi m)
  | k1 => exact error_iff_of_lens (resultOf_k1 s)
  | k2 => exact error_iff_of_lens (resultOf_k2 s)
  | k3 => exact error_iff_of_lenA (resultOf_k3 s)
  | k4 => exact error_iff_of_lenA (resultOf_k4 s)
  | obf => exact error_iff_of_lenA (resultOf_obf s)
  | deobf =>
    rw [resultOf_deobf]
    exact error_iff_of_lenA (resultOf_obf s)

/-- The errors of every command: ERR_LENGTH by the table of R264, and ERR_AUTH by R265. -/
theorem resultOf_error_iff (i : Instr) (s : State) (c : ErrCode) :
    resultOf i s = .error c ↔ (c = .length ∧ LengthFails i s) ∨ (c = .auth ∧ AuthFails i s) := by
  by_cases hi : ∃ m, i = .ccmDec m
  · obtain ⟨m, rfl⟩ := hi
    exact resultOf_ccmDec_error_iff m s c
  · have hauth : ¬AuthFails i s := fun ⟨m, hm, _⟩ => hi ⟨m, hm⟩
    rw [resultOf_error_iff_length (not_exists.1 hi)]
    simp [hauth]

theorem resultOf_length_iff (i : Instr) (s : State) : resultOf i s = .error .length ↔ LengthFails i s := by
  simp [resultOf_error_iff]

theorem resultOf_auth_iff (i : Instr) (s : State) : resultOf i s = .error .auth ↔ AuthFails i s := by
  simp [resultOf_error_iff]

/-! ### The statements -/

/-- Settles O47: ERRCODE 1 is the result ERR_LENGTH, and that is the table of R264. -/
theorem lengthErrors : Obligations.LengthErrors := by
  refine fun i s => ⟨fun hl => ?_, fun hl t he herr => ?_⟩
  · exact ⟨_, exec_error ((resultOf_length_iff i s).2 hl), failed_takeError s .length⟩
  · exact hl ((resultOf_length_iff i s).1 ((errcode_of_exec he .length).1 herr))

/-- Settles O48: ERRCODE 2 is the result ERR_AUTH, and a command with that result has failed with it. -/
theorem authErrorOnlyOnMicMismatch : Obligations.AuthErrorOnlyOnMicMismatch := by
  intro i s t he
  have hauth : t.errcode = 2 ↔ resultOf i s = .error .auth := errcode_of_exec he .auth
  refine ⟨hauth.trans (resultOf_auth_iff i s), fun herr => ?_⟩
  rw [exec_error (hauth.1 herr)] at he
  cases he
  exact failed_takeError s .auth

/-- Settles O6: a word that is not legal decodes to no command, so the engine's turn takes ERR_OPCODE. -/
theorem illegalWordEndsInOpcodeError : Obligations.IllegalWordEndsInOpcodeError := by
  intro s hbusy hill
  rcases engineTurn_cases s with ⟨hidle, -⟩ | ⟨-, i, hd, -⟩ | ⟨-, e, -, he⟩
  · rw [hbusy] at hidle
    cases hidle
  · have hlegal : legalWord s.cmdl = true := (decodeAcceptsExactlyLegalWords s.cmdl).1 ⟨i, hd⟩
    rw [hill] at hlegal
    cases hlegal
  · exact ⟨_, he, failed_takeError s .opcode⟩

/-- Settles O7: a step is one turn, and every agent's turn answers a next state. -/
theorem stepAlwaysAnswersNext : Obligations.StepAlwaysAnswersNext := nextTurn_next

end Sys2Proof.Machine
end

section
/-! SUPPORT. Reset (spec/70_reset_and_hazards.md R300 to R302), and the clock cycles between an acceptance and its completion
(R312). -/

namespace Sys2Proof.Machine

/-! ### Reset -/

theorem inputsZero_resetCore (s : State) : InputsZero (resetCore s) :=
  ⟨rfl, rfl, rfl, rfl, rfl, rfl, rfl, fun _ _ => rfl, fun _ _ => rfl⟩

theorem outputsZero_resetCore (s : State) : OutputsZero (resetCore s) :=
  ⟨rfl, rfl, rfl, fun _ _ => rfl⟩

theorem statusWord_resetCore (s : State) : (resetCore s).statusWord = 0 := (rfl : State.reset.statusWord = 0)

/-- Settles O9: the base case of the invariant. -/
theorem resetMeetsInvariant : Obligations.ResetMeetsInvariant := inv_reset

/-- Settles O11: the reset state is a reset of itself, and ID is the same constant in every state. -/
theorem resetValues : Obligations.ResetValues :=
  ⟨rfl, rfl, rfl, rfl, inputsZero_resetCore State.reset, outputsZero_resetCore State.reset, rfl,
    by rw [(idAndStatusWords State.reset).1]⟩

/-- Settles O12: the reset turn leaves R300's values, and in IDLE the engine's turn does nothing. -/
theorem resetAbortsTheCommand : Obligations.ResetAbortsTheCommand := fun s =>
  ⟨resetCore s, rfl, rfl, statusWord_resetCore s, rfl, rfl, inputsZero_resetCore s, outputsZero_resetCore s, engineTurn_idle rfl⟩

/-! ### Cycles until the completion -/

section
variable {s t : State}

/-- Clock cycles that do not use up the count only count. -/
theorem timedClocks_counts (h : s.phase = .busy) {j n : Nat} (hj : j < n) :
    timedClocks j { core := s, left := n } = .next { core := s, left := n - j } := by
  induction j generalizing n with
  | zero => rfl
  | succ j ih =>
    have hclock : timedClock { core := s, left := n } = .next { core := s, left := n - 1 } :=
      timedClock_counts h (show 1 < n by omega)
    rw [timedClocks, hclock, ← Nat.sub_sub, Nat.sub_right_comm]
    exact ih (by omega)

/-- As many clock cycles as the count says end in the engine's step. -/
theorem timedClocks_completes (h : s.phase = .busy) (he : engineTurn s = .next t) {n : Nat} (hn : 1 ≤ n) :
    timedClocks n { core := s, left := n } = .next { core := t, left := 0 } := by
  induction n, hn using Nat.le_induction with
  | base =>
    rw [timedClocks, timedClock_completes h le_rfl he]
    rfl
  | succ n hn ih =>
    have hclock : timedClock { core := s, left := n + 1 } = .next { core := s, left := n } :=
      timedClock_counts h (show 1 < n + 1 by omega)
    rw [timedClocks, hclock]
    exact ih

/-- Accesses and clock cycles that do not use up the count: the cycles count, and the accesses change nothing but INTEN and
INTFLAG (R80, R81, R116). -/
theorem timedEvents_counts (l : Config.Latency) (h : s.phase = .busy) {es : List TimedEvent} {n : Nat}
    (hn : clockCount es < n) : ∃ e f, timedEvents l es { core := s, left := n } =
      .next { core := { s with inten := e, intflag := f }, left := n - clockCount es } := by
  induction es generalizing s n with
  | nil => exact ⟨s.inten, s.intflag, rfl⟩
  | cons x es ih =>
    cases x with
    | access a =>
      obtain ⟨e, f, ha⟩ := busAccess_busy h a
      rw [timedEvents, timedAccess_busy l h, ha]
      exact ih (s := { s with inten := e, intflag := f }) h hn
    | clock =>
      simp only [clockCount] at hn ⊢
      have hclock : timedClock { core := s, left := n } = .next { core := s, left := n - 1 } :=
        timedClock_counts h (show 1 < n by omega)
      rw [timedEvents, hclock, Nat.add_comm, ← Nat.sub_sub]
      exact ih h (by omega)

/-! ### The completion and the flags -/

/-- In BUSY the engine's turn completes with a result that depends on neither INTEN nor INTFLAG. -/
theorem engineTurn_busy_flags (h : s.phase = .busy) :
    ∃ r, ∀ e f, engineTurn { s with inten := e, intflag := f } = .next (complete r { s with inten := e, intflag := f }) := by
  cases hd : decode s.cmdl with
  | ok i =>
    refine ⟨resultOf i s, fun e f => ?_⟩
    rw [engineTurn_of_decode (s := { s with inten := e, intflag := f }) h hd, exec_eq, resultOf_flags]
  | error c =>
    exact ⟨.error .opcode, fun e f => by simp [engineTurn, State.busy, h, completionStep, hd, complete]⟩

/-- A completion's outputs, DONE, ERR and ERRCODE do not depend on INTEN or INTFLAG. -/
theorem sameOutputs_complete_flags (r : CmdResult) (s : State) (e f : BitVec 3) :
    SameOutputs (complete r { s with inten := e, intflag := f }) (complete r s) := by
  cases r <;> exact ⟨rfl, rfl, rfl, fun _ _ => rfl, rfl, rfl, rfl⟩

/-- After events with one clock cycle missing to the count, the next cycle is the engine's step, and what a host sees of it is
what it sees without the accesses. -/
theorem timedEvents_completes (l : Config.Latency) (h : s.phase = .busy) {es : List TimedEvent} {u : Timed} {e f : BitVec 3}
    (hes : timedEvents l es u = .next { core := { s with inten := e, intflag := f }, left := 1 }) :
    ∃ x y, timedEvents l (es ++ [.clock]) u = .next x ∧ engineTurn { s with inten := e, intflag := f } = .next x.core ∧
      x.core.phase = .idle ∧ engineTurn s = .next y ∧ SameOutputs x.core y := by
  obtain ⟨r, hr⟩ := engineTurn_busy_flags h
  refine ⟨{ core := complete r { s with inten := e, intflag := f }, left := 0 }, complete r s, ?_, hr e f,
    complete_phase r _, hr s.inten s.intflag, sameOutputs_complete_flags r s e f⟩
  have hclock : timedClock { core := { s with inten := e, intflag := f }, left := 1 } =
      .next { core := complete r { s with inten := e, intflag := f }, left := 0 } :=
    timedClock_completes h le_rfl (hr e f)
  rw [timedEvents_append l _ hes, timedEvents, hclock]
  rfl

end

/-- Settles O56: acceptance starts the count at LATENCY, every clock cycle but the last only counts, accesses leave the count and
all that a completion reads, and the last cycle is the engine's step. -/
theorem completionAfterLatency : Obligations.CompletionAfterLatency := by
  intro l t w hidle
  have hbusy : (accept w t.core).phase = .busy := rfl
  have hpos := l.atLeastOne (w.extractLsb' 0 8) t.core.lenA.toNat t.core.lenB.toNat (w.getLsbD 8)
  obtain ⟨r, hr⟩ := engineTurn_busy hbusy
  refine ⟨_, _, timedAccess_accept l hidle w, by rw [busAccess_cmd, cmdWrite_idle hidle], rfl,
    fun j hj => timedClocks_counts hbusy hj, ⟨_, timedClocks_completes hbusy hr hpos, hr, complete_phase r _⟩,
    fun es hes => ?_⟩
  obtain ⟨e, f, hv⟩ := timedEvents_counts l hbusy hes
  refine ⟨_, e, f, hv, rfl, fun hlast => ?_⟩
  rw [Nat.sub_eq_of_eq_add' hlast.symm] at hv
  exact timedEvents_completes l hbusy hv

end Sys2Proof.Machine
end
